-- ==== Sys2Proof/Config.lean ====
section
/-! DEFINITION. The parameters of R5 in one record, and the one free value. -/

namespace Sys2Proof

/-- R5, D22: the parameters of the hardware, each named once; the words' widths, the fields' places and the ranges are
taken from here. -/
structure Config where
  chBits : Nat
  nCh : Nat
  nSlots : Nat
  slotBits : Nat
  runMin : Nat
  runMax : Nat
  dsMin : Int
  dsMax : Int
  dsBits : Nat
  dlMin : Int
  dlMax : Int
  dlBits : Nat
  idLiteral : BitVec 8
  idRun : BitVec 2
  idIndex : BitVec 2
  idDiffShort : BitVec 2
  idDiffLong : BitVec 4
deriving DecidableEq, Repr

/-- R5: the values this hardware takes. -/
abbrev config : Config where
  chBits := 8
  nCh := 3
  nSlots := 64
  slotBits := 6
  runMin := 2
  runMax := 62
  dsMin := -2
  dsMax := 1
  dsBits := 2
  dlMin := -8
  dlMax := 7
  dlBits := 4
  idLiteral := 0b00001111#8
  idRun := 0b01#2
  idIndex := 0b10#2
  idDiffShort := 0b11#2
  idDiffLong := 0b0011#4

/-- R5: the 24 bits of a pixel, channel beside channel. -/
abbrev pixelBits : Nat := config.nCh * config.chBits

/-- R12, U2: what the 24 bits of `prev` hold while `prev_valid = 0` is unspecified. No run reads them (R18 item 3); in a
state that no run reaches, FLUSH would, and it then reads this free value, applied to the number of items in `tags` so
that no two emissions need read the same (log entry 8). -/
opaque Config.stalePrev : Nat → BitVec pixelBits

end Sys2Proof
end

