-- ==== Sys2Proof/Word.lean ====
section
/-! DEFINITION. The words the hardware's wires carry, at their widths. -/

namespace Sys2Proof

/-- R6: an unsigned integer in [0,255], 8 bits: a channel, and a byte of the output. -/
abbrev Byte := BitVec config.chBits

/-- R62: the wires of an input token, `in_pixel` and above it `in_eos`: 25. -/
abbrev tokenBits : Nat := pixelBits + 1

/-- R62: an input token, `in_eos` in bit 24 and `in_pixel` below it. -/
abbrev TokenWord := BitVec tokenBits

/-- R22: the 27 wires of the tag bus, `tag_kind` in bits 26:24 and `tag_payload`, as wide as a pixel, below it. -/
abbrev TagWord := BitVec (pixelBits + 3)

/-- R6: a cache slot, an integer in [0,63]. Every slot number exists (R31), and no other is representable. -/
abbrev Slot := Fin config.nSlots

end Sys2Proof
end

