-- ==== Sys2Proof/Syntax.lean ====
section
/-! DEFINITION. Pixels, Tags, tokens, output items, and the one instruction type: a constructor for each row of
spec/opcode_table.json. -/

namespace Sys2Proof

/-- R6: three independent 8-bit channels, compared by exact equality of all three. -/
structure Pixel where
  r : Byte
  g : Byte
  b : Byte
deriving DecidableEq, Repr, Inhabited

/-- R7: the closed sum of the five variants. Payloads are integers as R7 gives them; a slot outside [0,63] is
unrepresentable (R113). Which payloads are well-formed is `Tag.wf`. -/
inductive Tag where
  | literal (p : Pixel)
  | run (n : Nat)
  | index (s : Slot)
  | diffShort (dR dG dB : Int)
  | diffLong (dR dG dB : Int)
deriving DecidableEq, Repr, Inhabited

/-- R8: one item of the input stream. -/
inductive Token where
  | pix (p : Pixel)
  | eos
deriving DecidableEq, Repr, Inhabited

/-- R8: one item of the output stream. `OutEos` carries no byte (U4). -/
inductive OutItem where
  | byte (b : Byte)
  | eos
deriving DecidableEq, Repr, Inhabited

/-- R10, R15: one item of the CompressedStream history: a Tag, or the mark where a run ended. -/
inductive TagItem where
  | tag (t : Tag)
  | runEnd
deriving DecidableEq, Repr, Inhabited

/-- The seven rows of spec/opcode_table.json (R63): the five Tags as the packer is handed them, and the two input
tokens. -/
inductive Instr where
  | literal (p : Pixel)
  | run (n : Nat)
  | index (s : Slot)
  | diffShort (dR dG dB : Int)
  | diffLong (dR dG dB : Int)
  | pix (p : Pixel)
  | eos
deriving DecidableEq, Repr, Inhabited

/-- The row of a Tag. -/
def Tag.toInstr : Tag → Instr
  | .literal p => .literal p
  | .run n => .run n
  | .index s => .index s
  | .diffShort dR dG dB => .diffShort dR dG dB
  | .diffLong dR dG dB => .diffLong dR dG dB

/-- The row of a token. -/
def Token.toInstr : Token → Instr
  | .pix p => .pix p
  | .eos => .eos

/-- R147: the causes of InvalidTag. -/
inductive Cause where
  | invalidDeltaRange
  | invalidRunLength
  | invalidKind
deriving DecidableEq, Repr, Inhabited

end Sys2Proof
end

