-- ==== Sys2Proof/WellFormed.lean ====
section
/-! DEFINITION. R7: the constraint on each variant's payload. -/

namespace Sys2Proof

/-- R7: `WF(t)`. A Literal has no constraint, and an Index's is its type (R113). -/
def Tag.wf : Tag → Bool
  | .literal _ => true
  | .run n => decide (config.runMin ≤ n ∧ n ≤ config.runMax)
  | .index _ => true
  | .diffShort dR dG dB =>
    [dR, dG, dB].all fun d => decide (config.dsMin ≤ d ∧ d ≤ config.dsMax)
  | .diffLong dR dG dB =>
    [dR, dG, dB].all fun d => decide (config.dlMin ≤ d ∧ d ≤ config.dlMax)

/-- A tag row is well-formed when its Tag is; every token is well-formed (R62). -/
def Instr.wf : Instr → Bool
  | .literal p => (Tag.literal p).wf
  | .run n => (Tag.run n).wf
  | .index s => (Tag.index s).wf
  | .diffShort dR dG dB => (Tag.diffShort dR dG dB).wf
  | .diffLong dR dG dB => (Tag.diffLong dR dG dB).wf
  | .pix _ => true
  | .eos => true

end Sys2Proof
end

