-- ==== Sys2Proof/Decode.lean ====
section
/-! DEFINITION. The encodings: tag groups as bytes (R50 to R59), input tokens as 25-bit words (R62), Tags as 27-bit
tag bus words (R22). Each is read by a total function that rejects by name, and written by an encoder made from the
same tables. -/

namespace Sys2Proof

/-! ## Tag groups -/

/-- R50: the five formats. -/
inductive Variant where
  | literal
  | diffLong
  | run
  | index
  | diffShort
deriving DecidableEq, Repr, Inhabited

/-- One tag row of spec/opcode_table.json: the test on the first byte and the group's length in bytes. -/
structure TagRow where
  variant : Variant
  firstMask : Byte
  firstMatch : Byte
  length : Nat
deriving DecidableEq, Repr

/-- R51 to R55: an identifier in its place in the first byte, above so many bits of payload. -/
def leading {k : Nat} (id : BitVec k) (below : Nat) : Byte := id.setWidth config.chBits <<< below

/-- R57: the row of a variant from its identifier, the bits of payload below it in the first byte and the bits of payload
in all. -/
def tagRow {k : Nat} (v : Variant) (id : BitVec k) (below payload : Nat) : TagRow :=
  ⟨v, leading (BitVec.allOnes k) below, leading id below, (k + payload) / config.chBits⟩

/-- R57, R63: the tag rows. -/
def tagRows : List TagRow :=
  [ tagRow .literal config.idLiteral 0 pixelBits,
    tagRow .diffLong config.idDiffLong config.dlBits (config.nCh * config.dlBits),
    tagRow .run config.idRun config.slotBits config.slotBits,
    tagRow .index config.idIndex config.slotBits config.slotBits,
    tagRow .diffShort config.idDiffShort (config.nCh * config.dsBits) (config.nCh * config.dsBits) ]

/-- R63: the first byte selects the row. -/
def TagRow.selects (row : TagRow) (b : Byte) : Bool := decide (b &&& row.firstMask = row.firstMatch)

/-- R57: the variant of a group from its first byte; `none` is a reserved first byte (R58). -/
def variantOf (b : Byte) : Option Variant := (tagRows.find? (·.selects b)).map (·.variant)

/-- Why bytes are not an instruction. -/
inductive DecodeError where
  /-- There is no first byte. -/
  | emptyGroup
  /-- R58: the first byte belongs to no variant. -/
  | reservedFirstByte (b : Byte)
  /-- R57: fewer bytes than the first byte's variant has. -/
  | truncatedGroup (b : Byte)
  /-- Bytes are left after the group. -/
  | trailingBytes (rest : List Byte)
  /-- R59: a Run whose count is 0, 1 or 63 (only the strict reader of a stream says so). -/
  | reservedRunCount (n : Nat)
  /-- The table has no row of this many bits. -/
  | noSuchWidth (nbits : Nat)
  /-- A number that does not fit the token's 25 bits and begins no group. -/
  | wordTooWide (w : Nat)
deriving DecidableEq, Repr, Inhabited

/-- R56: a decoder recovers the delta by adding the minimum back to the unsigned field. -/
def unbias {w : Nat} (lo : Int) (field : BitVec w) : Int := (field.toNat : Int) + lo

/-- R56: wire field = delta minus the minimum. -/
def biasField (w : Nat) (lo d : Int) : BitVec w := BitVec.ofInt w (d - lo)

/-- R51 to R57: read one group from the front of a stream of bytes; the rest of the stream is handed back. -/
def decodeGroup : List Byte → Except DecodeError (Tag × List Byte)
  | [] => .error .emptyGroup
  | b :: rest =>
    match variantOf b with
    | none => .error (.reservedFirstByte b)
    | some .literal =>
      match rest with
      | r :: g :: bl :: rest' => .ok (.literal ⟨r, g, bl⟩, rest')
      | _ => .error (.truncatedGroup b)
    | some .diffLong =>
      match rest with
      | c :: rest' =>
        .ok (.diffLong (unbias config.dlMin (b.extractLsb' 0 config.dlBits))
          (unbias config.dlMin (c.extractLsb' config.dlBits config.dlBits))
          (unbias config.dlMin (c.extractLsb' 0 config.dlBits)), rest')
      | [] => .error (.truncatedGroup b)
    | some .run => .ok (.run (b.extractLsb' 0 config.slotBits).toNat, rest)
    | some .index => .ok (.index (b.extractLsb' 0 config.slotBits).toFin, rest)
    | some .diffShort =>
      .ok (.diffShort (unbias config.dsMin (b.extractLsb' (2 * config.dsBits) config.dsBits))
        (unbias config.dsMin (b.extractLsb' config.dsBits config.dsBits))
        (unbias config.dsMin (b.extractLsb' 0 config.dsBits)), rest)

/-- R114: the field of a DiffShort delta. -/
def shortField (d : Int) : BitVec config.dsBits := biasField config.dsBits config.dsMin d

/-- R115: the field of a DiffLong delta. -/
def longField (d : Int) : BitVec config.dlBits := biasField config.dlBits config.dlMin d

/-- R51 to R55: the bytes of a Tag's group, laid out field beside field. -/
def encodeGroup : Tag → List Byte
  | .literal p => [config.idLiteral, p.r, p.g, p.b]
  | .run n => [config.idRun ++ BitVec.ofNat config.slotBits n]
  | .index s => [config.idIndex ++ BitVec.ofNat config.slotBits s.val]
  | .diffShort dR dG dB => [config.idDiffShort ++ shortField dR ++ shortField dG ++ shortField dB]
  | .diffLong dR dG dB => [config.idDiffLong ++ longField dR, longField dG ++ longField dB]

/-! ## Input tokens -/

/-- R22, R62: the pixel in the low 24 bits of a word, R highest. -/
def pixelOfWord {n : Nat} (w : BitVec n) : Pixel :=
  ⟨w.extractLsb' (2 * config.chBits) config.chBits, w.extractLsb' config.chBits config.chBits,
    w.extractLsb' 0 config.chBits⟩

/-- R62: every 25-bit word is a token; `in_pixel` is ignored when `in_eos = 1`. -/
def decodeToken (w : TokenWord) : Token := if w.getLsbD pixelBits then .eos else .pix (pixelOfWord w)

/-- R62: a word of the token. The ignored bits of an `Eos` are written 0. -/
def encodeToken : Token → TokenWord
  | .pix p => 0#1 ++ p.r ++ p.g ++ p.b
  | .eos => 1#1 ++ 0#pixelBits

/-! ## The tag bus -/

/-- R22: `tag_kind`. -/
def busKind (w : TagWord) : BitVec 3 := w.extractLsb' pixelBits 3

/-- R22: the `k`-th delta field from below, signed, of either Diff: as wide as a DiffLong's. -/
def busDelta (w : TagWord) (k : Nat) : Int := (w.extractLsb' (k * config.dlBits) config.dlBits).toInt

/-- R22: the Tag on the bus; `none` is a kind 5, 6 or 7. Payload bits that a kind does not use are ignored (U6). -/
def decodeBus (w : TagWord) : Option Tag :=
  if busKind w = 0#3 then some (.literal (pixelOfWord w))
  else if busKind w = 1#3 then some (.run (w.extractLsb' 0 config.slotBits).toNat)
  else if busKind w = 2#3 then some (.index (w.extractLsb' 0 config.slotBits).toFin)
  else if busKind w = 3#3 then some (.diffShort (busDelta w 2) (busDelta w 1) (busDelta w 0))
  else if busKind w = 4#3 then some (.diffLong (busDelta w 2) (busDelta w 1) (busDelta w 0))
  else none

/-- R22: the payload of an Index or a Run, a number in the low bits. -/
def busNumber (n : Nat) : BitVec pixelBits := 0#(pixelBits - config.slotBits) ++ BitVec.ofNat config.slotBits n

/-- R22: the payload of a Diff, three signed fields in the low bits. -/
def busDeltas (dR dG dB : Int) : BitVec pixelBits :=
  0#(pixelBits - config.nCh * config.dlBits) ++ BitVec.ofInt config.dlBits dR ++ BitVec.ofInt config.dlBits dG ++
    BitVec.ofInt config.dlBits dB

/-- R22: the bus word of a Tag whose payload the bus can carry (every well-formed Tag). -/
def encodeBus : Tag → TagWord
  | .literal p => 0#3 ++ p.r ++ p.g ++ p.b
  | .run n => 1#3 ++ busNumber n
  | .index s => 2#3 ++ busNumber s.val
  | .diffShort dR dG dB => 3#3 ++ busDeltas dR dG dB
  | .diffLong dR dG dB => 4#3 ++ busDeltas dR dG dB

/-! ## Instructions -/

/-- The words of an instruction, in the encoding its row of spec/opcode_table.json has. -/
inductive Code where
  | group (bytes : List Byte)
  | token (w : TokenWord)
deriving DecidableEq, Repr

/-- The instruction of a code. A group is read whole. -/
def decode : Code → Except DecodeError Instr
  | .group bytes =>
    match decodeGroup bytes with
    | .ok (t, []) => .ok t.toInstr
    | .ok (_, b :: rest) => .error (.trailingBytes (b :: rest))
    | .error e => .error e
  | .token w => .ok (decodeToken w).toInstr

/-- The code of an instruction. -/
def encode : Instr → Code
  | .literal p => .group (encodeGroup (.literal p))
  | .run n => .group (encodeGroup (.run n))
  | .index s => .group (encodeGroup (.index s))
  | .diffShort dR dG dB => .group (encodeGroup (.diffShort dR dG dB))
  | .diffLong dR dG dB => .group (encodeGroup (.diffLong dR dG dB))
  | .pix p => .token (encodeToken (.pix p))
  | .eos => .token (encodeToken .eos)

/-! ## Numbers as spec/opcode_table.json writes them -/

/-- The `k`-th byte of a number, byte 0 the least significant. -/
def byteAt (w k : Nat) : Byte := BitVec.ofNat config.chBits (w >>> (config.chBits * k))

/-- R63: the code a number of the table stands for. A group is one big-endian number; a token word has `in_eos` as
bit 24 and, in whole bytes, 32 bits. Of the 32-bit numbers the tokens are those below 2^25, and no group of four
bytes is among them, since a Literal's first byte is 0x0F (log entry 4). -/
def codeOfTableWord (nbits w : Nat) : Except DecodeError Code :=
  if nbits = 8 then
    if w < 2 ^ 8 then .ok (.group [byteAt w 0]) else .error (.wordTooWide w)
  else if nbits = 16 then
    if w < 2 ^ 16 then .ok (.group [byteAt w 1, byteAt w 0]) else .error (.wordTooWide w)
  else if nbits = tokenBits then
    if w < 2 ^ tokenBits then .ok (.token (BitVec.ofNat tokenBits w)) else .error (.wordTooWide w)
  else if nbits = 32 then
    if w < 2 ^ tokenBits then .ok (.token (BitVec.ofNat tokenBits w))
    else if w < 2 ^ 32 then .ok (.group [byteAt w 3, byteAt w 2, byteAt w 1, byteAt w 0])
    else .error (.wordTooWide w)
  else .error (.noSuchWidth nbits)

/-- The instruction the decoder reads from a number of the table, with the reason where it reads none. -/
def decodeTableNumber (nbits w : Nat) : Except DecodeError Instr :=
  match codeOfTableWord nbits w with
  | .ok c => decode c
  | .error e => .error e

/-- The instruction the decoder reads from a number of the table. -/
def decodeTableWord (nbits w : Nat) : Option Instr :=
  match decodeTableNumber nbits w with
  | .ok i => some i
  | .error _ => none

end Sys2Proof
end

