-- ==== Sys2Proof/Machine/State.lean ====
section
/-! DEFINITION. The machine's state as plain data (R10), the reasons a step can stop, and the state after reset. -/

namespace Sys2Proof.Machine

/-- R10, R11, D20: the cache. A slot is listed exactly when `occ` is 1, with its `pix`; the canonical form is strictly
rising slots (`Cache.wf`). -/
abbrev Cache := List (Slot × Pixel)

/-- What the environment presents at a clock edge. -/
inductive Presented where
  /-- An input beat with this word on `{in_eos, in_pixel}` (R62, R135). -/
  | token (w : TokenWord)
  /-- A word on the tag bus, driven by something other than `tag_selector` (R22, R146). -/
  | tagWord (w : TagWord)
deriving DecidableEq, Repr

/-- What the environment does at one clock edge (log entry 2). -/
structure Edge where
  /-- `rst` (R138). -/
  rst : Bool
  /-- The word taken at this edge, if one is. -/
  presented : Option Presented
  /-- The consumer accepts the item presented on the output port, if one is (`out_ready`, R135). -/
  outReady : Bool
deriving DecidableEq, Repr

/-- R10, R19, R21, R136, and the schedule of what the environment will do. -/
structure State where
  /-- `occ[0..63]` and `pix[0..63]` (R11). -/
  cache : Cache
  /-- `prev_valid` and `prev` (R12). -/
  prev : Option Pixel
  /-- `run_acc` (R13). -/
  runAcc : Nat
  /-- `pos` (R14). -/
  pos : Nat
  /-- `err` (R16). -/
  err : Bool
  /-- `err_code` (R16, R147). -/
  errCode : BitVec 2
  /-- `tags`, oldest first (R15). -/
  tags : List TagItem
  /-- `out`, oldest first (R15). -/
  out : List OutItem
  /-- The items emitted and not yet transferred, the next first: the packer's byte position (R21(b)) and the buffer
  before the output port (P4). -/
  pending : List OutItem
  /-- R136's sequence of items transferred by output beats, oldest first. -/
  sent : List OutItem
  /-- What the environment does at the clock edges to come, the next first; none left means nothing happens. -/
  edges : List Edge
deriving DecidableEq, Repr

/-- Why the machine stops. -/
inductive Fault where
  /-- Raised by every instruction's meaning when a Tag or token is presented while `err` is 1: the hardware is stuck
  until reset (R148, R149, F2). `code` is the recorded cause. Safe: the hardware does nothing here that a claim could
  need. -/
  | stuckUntilReset (code : BitVec 2)
deriving DecidableEq, Repr

/-- Why an instruction has no meaning. -/
inductive Refusal where
  /-- Raised by an arm of `exec` whose instruction has no meaning yet. No arm does. Safe. -/
  | notModelled (mnemonic : String)
deriving DecidableEq, Repr

/-- R19, R160: the machine right after reset. The histories `tags`, `out`, `sent` are empty and nothing is scheduled
(log entry 9); the hardware waits for its first token. -/
def State.reset : State where
  cache := []
  prev := none
  runAcc := 0
  pos := 0
  err := false
  errCode := 0#2
  tags := []
  out := []
  pending := []
  sent := []
  edges := []

end Sys2Proof.Machine
end

