-- ==== Sys2Proof/Machine/Operands.lean ====
section
/-! DEFINITION. What the operations compute from their operands: the slot of a pixel (R70), the deltas (R93), the
bytes of a Tag (R111 to R115). None reads or writes State. -/

namespace Sys2Proof.Machine

/-- R70: HASH. The sum is the integer sum. -/
def pixelHash (p : Pixel) : Slot :=
  ⟨(p.r.toNat + p.g.toNat + p.b.toNat) % config.nSlots, Nat.mod_lt _ (by decide)⟩

/-- R93, D1: one channel's difference, current minus previous, an integer that does not wrap. -/
def channelDelta (cur prev : Byte) : Int := (cur.toNat : Int) - (prev.toNat : Int)

/-- The three differences. -/
structure Deltas where
  dR : Int
  dG : Int
  dB : Int
deriving DecidableEq, Repr

/-- R93: DELTA. -/
def delta (p prev : Pixel) : Deltas :=
  ⟨channelDelta p.r prev.r, channelDelta p.g prev.g, channelDelta p.b prev.b⟩

/-- R56: a biased delta in a byte, ready to be shifted into place. -/
def biasedByte (lo d : Int) : Byte := BitVec.ofInt config.chBits (d - lo)

/-- R111 to R115: the bytes of a well-formed Tag. It is called through `pack` alone, which faults on any other. -/
def packBytes : Tag → List Byte
  | .literal p => [config.idLiteral, p.r, p.g, p.b]
  | .run n => [leading config.idRun config.slotBits ||| BitVec.ofNat config.chBits n]
  | .index s => [leading config.idIndex config.slotBits ||| BitVec.ofNat config.chBits s.val]
  | .diffShort dR dG dB =>
    [leading config.idDiffShort (config.nCh * config.dsBits) ||| (biasedByte config.dsMin dR <<< (2 * config.dsBits)) |||
      (biasedByte config.dsMin dG <<< config.dsBits) ||| biasedByte config.dsMin dB]
  | .diffLong dR dG dB =>
    [leading config.idDiffLong config.dlBits ||| biasedByte config.dlMin dR,
      (biasedByte config.dlMin dG <<< config.dlBits) ||| biasedByte config.dlMin dB]

end Sys2Proof.Machine
end

