-- ==== Sys2Proof/Machine/Flags.lean ====
section
/-! DEFINITION. The one-bit conditions the rules test (R17) and the packer's check of a Tag (R116, R147). -/

namespace Sys2Proof.Machine

/-- `lo ≤ d ≤ hi`. -/
def inRange (lo hi d : Int) : Bool := decide (lo ≤ d) && decide (d ≤ hi)

/-- R94: all three deltas fit DiffShort. -/
def fitsShort (d : Deltas) : Bool :=
  inRange config.dsMin config.dsMax d.dR && inRange config.dsMin config.dsMax d.dG &&
    inRange config.dsMin config.dsMax d.dB

/-- R95: all three deltas fit DiffLong. -/
def fitsLong (d : Deltas) : Bool :=
  inRange config.dlMin config.dlMax d.dR && inRange config.dlMin config.dlMax d.dG &&
    inRange config.dlMin config.dlMax d.dB

/-- R81: a run of `n` repeats is emitted as a Run. -/
def qualifies (n : Nat) : Bool := decide (config.runMin ≤ n)

/-- R82: the run has reached the cap and closes. -/
def atCap (n : Nat) : Bool := decide (n = config.runMax)

/-- R17: `prev_valid`. -/
def prevValid (s : State) : Bool := s.prev.isSome

/-- R83, R129: `prev_valid = 1 and p == prev`. -/
def isRepeat (p : Pixel) (s : State) : Bool := decide (s.prev = some p)

/-- R134, R148: the hardware can take what is presented; while `err` is 1 it takes nothing. When it does take it is
its own affair (R135), and the schedule's. -/
def inReady (s : State) : Bool := !s.err

/-- R134, R148: an item is presented on the output port; while `err` is 1 none is. -/
def outValid (s : State) : Bool := !s.err && !s.pending.isEmpty

/-- R134: `out_eos` of the item presented. -/
def outEos (s : State) : Bool := decide (s.pending.head? = some .eos)

/-- R116, R147, R151(b): what is wrong with a Tag, if anything. InvalidKind belongs to bus words that are no Tag. -/
def tagCause : Tag → Option Cause
  | .literal _ => none
  | .run n => if decide (config.runMin ≤ n) && decide (n ≤ config.runMax) then none else some .invalidRunLength
  | .index _ => none
  | .diffShort dR dG dB => if fitsShort ⟨dR, dG, dB⟩ then none else some .invalidDeltaRange
  | .diffLong dR dG dB => if fitsLong ⟨dR, dG, dB⟩ then none else some .invalidDeltaRange

/-- R16, R147: the code of a cause in `err_code`. -/
def causeCode : Cause → BitVec 2
  | .invalidDeltaRange => 1#2
  | .invalidRunLength => 2#2
  | .invalidKind => 3#2

end Sys2Proof.Machine
end

