-- ==== Sys2Proof/Machine/Ops.lean ====
section
/-! DEFINITION. The shared operations over State: the cache (R71 to R73), the packer and its one fault (R110, R116,
R148), the two histories (R15), the output port (R136) and reset (R138). -/

namespace Sys2Proof.Machine

/-! ## The cache -/

/-- R32: MemRead of one slot; `none` is `occ = 0`. -/
def cacheRead : Cache → Slot → Option Pixel
  | [], _ => none
  | (k, q) :: rest, a => if k = a then some q else cacheRead rest a

/-- R32: MemWrite of `(1, p)` to one slot, in place in the rising list. -/
def cacheWrite : Cache → Slot → Pixel → Cache
  | [], a, p => [(a, p)]
  | (k, q) :: rest, a, p =>
    if a < k then (a, p) :: (k, q) :: rest
    else if k = a then (a, p) :: rest
    else (k, q) :: cacheWrite rest a p

/-- R73: CLEAR. -/
def cacheClear : Cache := []

/-- The canonical form: slots strictly rising. -/
abbrev Cache.wf (c : Cache) : Prop := List.Pairwise (fun a b => a.1 < b.1) c

/-- R17, R71: the hit condition, `occ[s] = 1 and pix[s] == p`. -/
def isHit (c : Cache) (p : Pixel) : Bool := decide (cacheRead c (pixelHash p) = some p)

/-- R71: LOOKUP. -/
def cacheLookup (c : Cache) (p : Pixel) : Option Slot := if isHit c p then some (pixelHash p) else none

/-- R72: INSERT, unconditional. -/
def cacheInsert (c : Cache) (p : Pixel) : Cache := cacheWrite c (pixelHash p) p

/-! ## The packer -/

/-- R110, R116: PACK. An ill-formed Tag is a fault, never bytes. -/
def pack (t : Tag) : Except Cause (List Byte) :=
  match tagCause t with
  | none => .ok (packBytes t)
  | some c => .error c

/-- R148: raise InvalidTag. `err` and `err_code` record it, and nothing else changes: no byte of the Tag, no copy of it
(R147), no saved state, no handler. -/
def raise (c : Cause) (s : State) : State := { s with err := true, errCode := causeCode c }

/-- R9: `emit_byte` for each of the bytes, in order. -/
def emitBytes (bs : List Byte) (s : State) : State :=
  { s with out := s.out ++ bs.map .byte, pending := s.pending ++ bs.map .byte }

/-- R9, R117, R129: `emit_tag`, followed at once by `emit_byte` of each byte of its group; on an ill-formed Tag the
fault instead (R116). -/
def emitTag (t : Tag) (s : State) : State :=
  match pack t with
  | .ok bs => emitBytes bs { s with tags := s.tags ++ [.tag t] }
  | .error c => raise c s

/-- R9: `emit_eos`. -/
def emitEos (s : State) : State :=
  { s with tags := s.tags ++ [.runEnd], out := s.out ++ [.eos], pending := s.pending ++ [.eos] }

/-- R148: what follows an emission is not done when the emission raised a fault (log entry 11). -/
def unlessFaulted (k : State → State) (s : State) : State := if s.err then s else k s

/-- R148, R149, F2: the hardware takes what is presented only while `err` is 0; while it is 1 it is stuck until
reset (log entry 12). -/
def whileLive (k : State → State) (s : State) : Host.Outcome State Fault Refusal :=
  if inReady s then .next (k s) else .fault (.stuckUntilReset s.errCode)

/-! ## The output port -/

/-- R135, R136: an output beat, if the consumer is ready and an item is presented. While `err` is 1 none is (R148). -/
def deliver (ready : Bool) (s : State) : State :=
  if ready && outValid s then { s with pending := s.pending.tail, sent := s.sent ++ s.pending.take 1 } else s

/-! ## Reset -/

/-- R19, R138, R162: a clock edge with `rst = 1`. All state takes its reset value, what is pending is discarded, no
OutEos is produced; what was emitted stays emitted, what was transferred stays transferred, and the environment's
schedule is its own. -/
def applyReset (s : State) : State :=
  { State.reset with tags := s.tags, out := s.out, sent := s.sent, edges := s.edges }

end Sys2Proof.Machine
end

