-- ==== Sys2Proof/Machine/Packer.lean ====
section
/-! DEFINITION. The tag rows: a Tag presented to `tag_to_bitstream_packer` on the tag bus (R111 to R117, log
entry 1). The packer touches neither the cache nor `prev`, `run_acc` or `pos`. -/

namespace Sys2Proof.Machine

/-- R111: PACK_LITERAL. -/
def execLiteral (p : Pixel) (s : State) : Host.Outcome State Fault Refusal :=
  whileLive (emitTag (.literal p)) s

/-- R112: PACK_RUN. A length outside [2,62] takes InvalidRunLength (R116, R147). -/
def execRun (n : Nat) (s : State) : Host.Outcome State Fault Refusal :=
  whileLive (emitTag (.run n)) s

/-- R113: PACK_INDEX. -/
def execIndex (slot : Slot) (s : State) : Host.Outcome State Fault Refusal :=
  whileLive (emitTag (.index slot)) s

/-- R114: PACK_DIFF_SHORT. A delta outside [-2,1] takes InvalidDeltaRange (R116, R147). -/
def execDiffShort (dR dG dB : Int) (s : State) : Host.Outcome State Fault Refusal :=
  whileLive (emitTag (.diffShort dR dG dB)) s

/-- R115: PACK_DIFF_LONG. A delta outside [-8,7] takes InvalidDeltaRange (R147). -/
def execDiffLong (dR dG dB : Int) (s : State) : Host.Outcome State Fault Refusal :=
  whileLive (emitTag (.diffLong dR dG dB)) s

/-- R22, R147: a bus word of kind 5, 6 or 7 is no Tag; presenting it takes InvalidKind. -/
def presentUnknownKind (s : State) : Host.Outcome State Fault Refusal :=
  whileLive (raise .invalidKind) s

end Sys2Proof.Machine
end

