-- ==== Sys2Proof/Machine/TagSelector.lean ====
section
/-! DEFINITION. `tag_selector`: the choice of the Tag (R91 to R98), the update after it (R99), and the closing of a
pending run (R83, R129). -/

namespace Sys2Proof.Machine

/-- R93 to R96: the Tag of a pixel that missed, in the order DiffShort, DiffLong, Literal. -/
def normalMiss (prev : Option Pixel) (p : Pixel) : Tag :=
  match prev with
  | none => .literal p
  | some q =>
    let d := delta p q
    if fitsShort d then .diffShort d.dR d.dG d.dB
    else if fitsLong d then .diffLong d.dR d.dG d.dB
    else .literal p

/-- R97: NORMAL. -/
def normal (c : Cache) (prev : Option Pixel) (p : Pixel) : Tag :=
  match cacheLookup c p with
  | some s => .index s
  | none => normalMiss prev p

/-- R12: the content of `prev`. While `prev_valid = 0` it is the free value (U2). -/
def prevPixel (s : State) : Pixel :=
  match s.prev with
  | some q => q
  | none => pixelOfWord (Config.stalePrev s.tags.length)

/-- R91: SELECT_RUN. The run is consumed wholly and the repeated value inserted exactly once. -/
def selectRun (n : Nat) (s : State) : State :=
  unlessFaulted (fun t => { t with cache := cacheInsert t.cache (prevPixel s), pos := t.pos + n }) (emitTag (.run n) s)

/-- R129, FLUSH with a single repeat: the deferred pixel, equal to `prev`, takes the normal path. -/
def selectRepeat (s : State) : State :=
  unlessFaulted (fun t => { t with cache := cacheInsert t.cache (prevPixel s), pos := t.pos + 1 })
    (emitTag (normal s.cache s.prev (prevPixel s)) s)

/-- R97, R99: the pixel takes the normal path, then UPDATE. The Tag is chosen on the cache before the INSERT. -/
def selectPixel (p : Pixel) (s : State) : State :=
  unlessFaulted (fun t => { t with cache := cacheInsert t.cache p, prev := some p, pos := t.pos + 1 })
    (emitTag (normal s.cache s.prev p) s)

/-- R83, R129: FLUSH, close the pending run, if any. -/
def flush (s : State) : State :=
  let n := s.runAcc
  let s := { s with runAcc := 0 }
  if qualifies n then selectRun n s
  else if n = 1 then selectRepeat s
  else s

end Sys2Proof.Machine
end

