-- ==== Sys2Proof/Machine/Tokens.lean ====
section
/-! DEFINITION. The two token rows: what the hardware does when it accepts a token (R129, R130). One token is processed
completely, with all its emissions, before the next. -/

namespace Sys2Proof.Machine

/-- R129: a repeat is counted, and closes the run when it is the 62nd. -/
def acceptRepeat (s : State) : State :=
  let s := { s with runAcc := s.runAcc + 1 }
  if atCap s.runAcc then flush s else s

/-- R129: the token `Pix(p)`. -/
def acceptPix (p : Pixel) (s : State) : State :=
  if isRepeat p s then acceptRepeat s else unlessFaulted (selectPixel p) (flush s)

/-- R130: the state of R19's column "after CLEAR at Eos". -/
def clearRun (s : State) : State :=
  { s with cache := cacheClear, prev := none, runAcc := 0, pos := 0 }

/-- R130: the token `Eos`. -/
def acceptEos (s : State) : State :=
  unlessFaulted (fun t => clearRun (emitEos t)) (flush s)

/-- R129: TOKEN Pix. -/
def execPix (p : Pixel) (s : State) : Host.Outcome State Fault Refusal :=
  whileLive (acceptPix p) s

/-- R130: TOKEN Eos. -/
def execEos (s : State) : Host.Outcome State Fault Refusal :=
  whileLive acceptEos s

end Sys2Proof.Machine
end

