-- ==== Sys2Proof/Machine/Dispatch.lean ====
section
/-! DEFINITION. One arm for each row of spec/opcode_table.json. -/

namespace Sys2Proof.Machine

def exec (i : Instr) (s : State) : Host.Outcome State Fault Refusal :=
  match i with
  | .literal p => Sys2Proof.Machine.execLiteral p s
  | .run n => Sys2Proof.Machine.execRun n s
  | .index slot => Sys2Proof.Machine.execIndex slot s
  | .diffShort dR dG dB => Sys2Proof.Machine.execDiffShort dR dG dB s
  | .diffLong dR dG dB => Sys2Proof.Machine.execDiffLong dR dG dB s
  | .pix p => Sys2Proof.Machine.execPix p s
  | .eos => Sys2Proof.Machine.execEos s

end Sys2Proof.Machine
end

