-- ==== Sys2Proof/Machine/Fetch.lean ====
section
/-! DEFINITION. Taking what the environment presents: a token word (R62) or a tag bus word (R22). -/

namespace Sys2Proof.Machine

/-- The instruction a presented word stands for; `none` is a tag bus word of kind 5, 6 or 7. -/
def fetch : Presented → Option Instr
  | .token w => some (decodeToken w).toInstr
  | .tagWord w => (decodeBus w).map Tag.toInstr

/-- The word by which the environment presents an instruction: a Tag on the tag bus, a token on the input port. -/
def presentation : Instr → Presented
  | .literal p => .tagWord (encodeBus (.literal p))
  | .run n => .tagWord (encodeBus (.run n))
  | .index s => .tagWord (encodeBus (.index s))
  | .diffShort dR dG dB => .tagWord (encodeBus (.diffShort dR dG dB))
  | .diffLong dR dG dB => .tagWord (encodeBus (.diffLong dR dG dB))
  | .pix p => .token (encodeToken (.pix p))
  | .eos => .token (encodeToken .eos)

/-- What is taken at an edge without reset: the fetched instruction runs, and a bus word that is no Tag faults. -/
def runPresented (w : Presented) (s : State) : Host.Outcome State Fault Refusal :=
  match fetch w with
  | some i => exec i s
  | none => presentUnknownKind s

/-- One clock edge. `rst` wins over everything at that edge (R151(c)); otherwise the output beat, if any, moves the item
that was already presented, and then what is presented is taken (R151(d), log entry 13). With nothing presented the
hardware is idle with its state held (R157). -/
def clockEdge (e : Edge) (s : State) : Host.Outcome State Fault Refusal :=
  if e.rst then .next (applyReset s)
  else
    match e.presented with
    | none => .next (deliver e.outReady s)
    | some w => runPresented w (deliver e.outReady s)

/-- The edge at which an instruction is presented and nothing else happens. -/
def edgeFor (i : Instr) : Edge := { rst := false, presented := some (presentation i), outReady := false }

/-- The edge at which nothing happens. -/
def idleEdge : Edge := { rst := false, presented := none, outReady := false }

/-- Put an edge before all that is scheduled. -/
def scheduleNext (e : Edge) (s : State) : State := { s with edges := e :: s.edges }

/-- R22, R137: the words the monitor port has shown, in order: the Tags of the `tags` history. -/
def monitorWords (items : List TagItem) : List TagWord :=
  items.filterMap fun
    | .tag t => some (encodeBus t)
    | .runEnd => none

end Sys2Proof.Machine
end

