-- ==== Sys2Proof/Machine/Step.lean ====
section
/-! DEFINITION. One step is one clock edge of the schedule. -/

namespace Sys2Proof.Machine

/-- The next scheduled edge happens. With none scheduled the state is held (R157). -/
def step (s : State) : Host.Outcome State Fault Refusal :=
  match s.edges with
  | [] => .next s
  | e :: rest => clockEdge e { s with edges := rest }

/-- The state with the instruction of a number of spec/opcode_table.json presented at the very next edge: a token on
the input port, a Tag on the tag bus. Where the decoder reads no instruction, nothing is presented. -/
def State.withFetchWord (s : State) (nbits w : Nat) : State :=
  match decodeTableWord nbits w with
  | some i => scheduleNext (edgeFor i) s
  | none => scheduleNext idleEdge s

end Sys2Proof.Machine
end

