-- ==== Sys2Proof/Machine/Batch.lean ====
section
/-! DEFINITION. The batch form: the Tags and bytes of a whole input as functions of it (R80, R126, R127). -/

namespace Sys2Proof.Machine

/-- R80: how many of the coming pixels, one after another, equal `q`, counted up to a cap. -/
def countRepeats (q : Pixel) : Nat → List Pixel → Nat
  | 0, _ => 0
  | _ + 1, [] => 0
  | cap + 1, p :: rest => if p = q then countRepeats q cap rest + 1 else 0

/-- R80: RUNLEN. -/
def runLen (q : Pixel) (seq : List Pixel) (i : Nat) : Nat := countRepeats q config.runMax (seq.drop i)

/-- R126: the state of the scan. -/
structure Scan where
  cache : Cache
  prev : Option Pixel
  pos : Nat
  tags : List Tag
deriving DecidableEq, Repr

/-- R126: CLEAR, `prev_valid <- 0`, `pos <- 0`, no tags. -/
def scanStart : Scan := { cache := cacheClear, prev := none, pos := 0, tags := [] }

/-- R127: the pixel at `pos` takes the normal path. -/
def scanPixel (seq : List Pixel) (s : Scan) : Scan :=
  match seq[s.pos]? with
  | some p =>
    { cache := cacheInsert s.cache p, prev := some p, pos := s.pos + 1, tags := s.tags ++ [normal s.cache s.prev p] }
  | none => s

/-- R127: STEP. -/
def scanStep (seq : List Pixel) (s : Scan) : Scan :=
  match s.prev with
  | some q =>
    let n := runLen q seq s.pos
    if qualifies n then { s with cache := cacheInsert s.cache q, pos := s.pos + n, tags := s.tags ++ [.run n] }
    else scanPixel seq s
  | none => scanPixel seq s

/-- R126: the loop, `while pos < len`, with as many turns as are left. -/
def scanLoop (seq : List Pixel) : Nat → Scan → Scan
  | 0, s => s
  | turns + 1, s => if s.pos < seq.length then scanLoop seq turns (scanStep seq s) else s

/-- R126: COMPRESS. Each turn advances `pos` by at least 1, so the input's length bounds the turns. -/
def compress (seq : List Pixel) : List Tag := (scanLoop seq seq.length scanStart).tags

/-- R117: the bytes of Tags one after another. -/
def packAll (ts : List Tag) : List Byte := ts.flatMap packBytes

/-- R126: BYTES. -/
def compressedBytes (seq : List Pixel) : List Byte := packAll (compress seq)

/-- R15, R130: the output items of a history of Tags and run ends. -/
def serialise (items : List TagItem) : List OutItem :=
  items.flatMap fun
    | .tag t => (packBytes t).map .byte
    | .runEnd => [.eos]

end Sys2Proof.Machine
end

