-- ==== Sys2Proof/Machine/Reader.lean ====
section
/-! DEFINITION. The reader of the output stream: the classifier of R57 to R59 and the reference decoder of
95_test_vectors.md section 4. It is no part of the hardware (R4, D28): it exists so that claims about the stream can be
stated (log entry 16). -/

namespace Sys2Proof.Machine

/-- R57 to R59: one group read strictly; the reserved Run counts are refused. -/
def readGroup (bs : List Byte) : Except DecodeError (Tag × List Byte) :=
  match decodeGroup bs with
  | .ok (.run n, rest) =>
    if decide (config.runMin ≤ n) && decide (n ≤ config.runMax) then .ok (.run n, rest) else .error (.reservedRunCount n)
  | r => r

/-- Groups read one after another, at most so many. -/
def readGroups : Nat → List Byte → Except DecodeError (List Tag)
  | _, [] => .ok []
  | 0, _ :: _ => .error .emptyGroup
  | k + 1, b :: rest =>
    match readGroup (b :: rest) with
    | .error e => .error e
    | .ok (t, rest') =>
      match readGroups k rest' with
      | .error e => .error e
      | .ok ts => .ok (t :: ts)

/-- R57: a stream that starts at a group boundary, as Tags. No group is empty, so the length bounds their number. -/
def readStream (bs : List Byte) : Except DecodeError (List Tag) := readGroups bs.length bs

/-- What the reference decoder keeps. -/
structure Decoded where
  cache : Cache
  prev : Option Pixel
  pixels : List Pixel
deriving DecidableEq, Repr

/-- It starts with an empty cache and no previous pixel. -/
def decodedStart : Decoded := { cache := cacheClear, prev := none, pixels := [] }

/-- A decoded pixel: given out, inserted, and the previous pixel of the next. -/
def decodedPixel (p : Pixel) (d : Decoded) : Decoded :=
  { cache := cacheInsert d.cache p, prev := some p, pixels := d.pixels ++ [p] }

/-- A channel plus a delta, refused outside [0,255]. -/
def addChannel (c : Byte) (d : Int) : Option Byte :=
  let v := (c.toNat : Int) + d
  if 0 ≤ v ∧ v < 2 ^ config.chBits then some (BitVec.ofInt config.chBits v) else none

/-- A pixel plus three deltas, refused when some channel is. -/
def addDeltas (p : Pixel) (dR dG dB : Int) : Option Pixel :=
  match addChannel p.r dR, addChannel p.g dG, addChannel p.b dB with
  | some r, some g, some b => some ⟨r, g, b⟩
  | _, _, _ => none

/-- The reference decoder on one Tag; `none` is a refusal. -/
def decodeTag (t : Tag) (d : Decoded) : Option Decoded :=
  match t with
  | .literal p => some (decodedPixel p d)
  | .run n =>
    match d.prev with
    | none => none
    | some q => some { d with cache := cacheInsert d.cache q, pixels := d.pixels ++ List.replicate n q }
  | .index s => (cacheRead d.cache s).map fun p => decodedPixel p d
  | .diffShort dR dG dB => (d.prev.bind fun q => addDeltas q dR dG dB).map fun p => decodedPixel p d
  | .diffLong dR dG dB => (d.prev.bind fun q => addDeltas q dR dG dB).map fun p => decodedPixel p d

/-- The reference decoder on Tags in order. -/
def decodeTags : List Tag → Decoded → Option Decoded
  | [], d => some d
  | t :: ts, d => (decodeTag t d).bind (decodeTags ts)

/-- DECODE: the pixels of one run's bytes. -/
def decodeStream (bs : List Byte) : Option (List Pixel) :=
  match readStream bs with
  | .error _ => none
  | .ok ts => (decodeTags ts decodedStart).map (·.pixels)

end Sys2Proof.Machine
end

