-- ==== Sys2Proof/Safety.lean ====
section
/-! DEFINITION. The words claims are stated in: the invariants of R18, the state between two runs, schedules of edges,
and a completed run (R139). -/

namespace Sys2Proof.Machine

/-- R18 and R16, as relations between the fields of one state. They hold whatever the environment does, a packer
driven from outside and a fault included. -/
structure CoreInv (s : State) : Prop where
  /-- The cache keeps its canonical form. -/
  cache_wf : Cache.wf s.cache
  /-- R18 item 1: a pixel stands in the slot of its hash. -/
  cache_hash : ∀ a q, cacheRead s.cache a = some q → pixelHash q = a
  /-- R18 item 3: `0 <= run_acc <= 61` between tokens. -/
  acc_below_cap : s.runAcc < config.runMax
  /-- R18 item 3: `run_acc > 0` implies `prev_valid = 1`. -/
  acc_prev : 0 < s.runAcc → s.prev ≠ none
  /-- R18 item 2: `prev_valid = 1` exactly when `pos >= 1`. -/
  prev_pos : s.prev ≠ none ↔ 1 ≤ s.pos
  /-- R18 item 2: `occ[HASH(prev)] = 1` and `pix[HASH(prev)] == prev`. -/
  prev_cached : ∀ q, s.prev = some q → cacheRead s.cache (pixelHash q) = some q
  /-- R18 item 1, before the first pixel: nothing has been represented, so nothing is occupied. -/
  start_empty : s.prev = none → s.cache = []
  /-- R18 item 4. -/
  tags_wf : ∀ t, TagItem.tag t ∈ s.tags → t.wf = true
  /-- R15, R117: `out` is the serialisation of `tags`. -/
  out_tags : s.out = serialise s.tags
  /-- R16: `err_code` is 0 exactly while `err` is 0. -/
  err_code : s.errCode = 0#2 ↔ s.err = false

/-- R12, R18 item 1, R170: the Tags of the current run, read by the reference decoder, give the machine's own cache and
`prev` and `pos` pixels. `older` is what other runs left in `tags`. -/
def RepresentsRun (s : State) : Prop :=
  ∃ (older : List TagItem) (run : List Tag) (d : Decoded),
    s.tags = older ++ run.map TagItem.tag ∧ decodeTags run decodedStart = some d ∧
      d.cache = s.cache ∧ d.prev = s.prev ∧ d.pixels.length = s.pos

/-- R19, R133: the state in which a run begins, whatever the histories hold. -/
def RunStart (s : State) : Prop :=
  s.cache = [] ∧ s.prev = none ∧ s.runAcc = 0 ∧ s.pos = 0 ∧ s.err = false

/-- An edge at which a token word is accepted. -/
def tokenEdge (t : Token) (ready : Bool) : Edge :=
  { rst := false, presented := some (.token (encodeToken t)), outReady := ready }

/-- The schedule of a whole run: the pixels, then Eos. -/
def runEdges (seq : List Pixel) : List Edge :=
  seq.map (fun p => tokenEdge (.pix p) false) ++ [tokenEdge .eos false]

/-- R146: the composed hardware, in which nothing but the selector drives the tag bus. -/
def Edge.composed (e : Edge) : Bool :=
  match e.presented with
  | some (.tagWord _) => false
  | _ => true

/-- The token accepted at an edge, if one is. -/
def Edge.token? (e : Edge) : Option Token :=
  match e.presented with
  | some (.token w) => some (decodeToken w)
  | _ => none

/-- `k` clock edges. -/
abbrev runs (k : Nat) (s : State) : Host.Outcome State Fault Refusal := Host.Core.run Sys2Proof.core k s

/-- R139: how many runs are complete: their OutEos has been transferred. -/
def runsComplete (s : State) : Nat := s.sent.count .eos

end Sys2Proof.Machine
end

