-- ==== Sys2Proof/Certificates/Slice0/Obligations.lean ====
section
/-! DEFINITION. The statements for the provers. Each docstring names the rule or the sections it formalises. -/

open Sys2Proof Sys2Proof.Machine

/-! ## Encodings -/

/-- R50 to R56, R62: the words of a well-formed instruction decode to that instruction, with every operand at every
value the encoding admits. -/
def Obligations.EveryWellFormedInstructionDecodesBack : Prop :=
  ∀ i : Instr, i.wf = true → decode (encode i) = .ok i

/-- R57, R59: what the strict reader reads from the front of a stream is a well-formed Tag, and the bytes are that Tag's
group and the rest: no other bytes read as that Tag. -/
def Obligations.StrictReadingIsTheEncodingReversed : Prop :=
  ∀ (bs : List Byte) (t : Tag) (rest : List Byte),
    readGroup bs = .ok (t, rest) → t.wf = true ∧ bs = encodeGroup t ++ rest

/-- R57, R60: groups follow one another with nothing between them, and the stream parses to exactly the Tags it was
packed from. -/
def Obligations.PackedStreamParsesToItsTags : Prop :=
  ∀ ts : List Tag, (∀ t ∈ ts, t.wf = true) → readStream (packAll ts) = .ok ts

/-- R110: PACK gives every well-formed Tag the group the encoding tables lay out, of its variant's length, injectively,
and has no bytes for any other Tag. -/
def Obligations.PackMapsTagsToTheirGroups : Prop :=
  (∀ t : Tag, t.wf = true → pack t = .ok (encodeGroup t)) ∧
  (∀ p, ∀ bs, pack (.literal p) = .ok bs → bs.length = 4) ∧
  (∀ n, ∀ bs, pack (.run n) = .ok bs → bs.length = 1) ∧
  (∀ s, ∀ bs, pack (.index s) = .ok bs → bs.length = 1) ∧
  (∀ dR dG dB, ∀ bs, pack (.diffShort dR dG dB) = .ok bs → bs.length = 1) ∧
  (∀ dR dG dB, ∀ bs, pack (.diffLong dR dG dB) = .ok bs → bs.length = 2) ∧
  (∀ t u : Tag, t.wf = true → u.wf = true → pack t = pack u → t = u) ∧
  (∀ t : Tag, ∀ bs, pack t = .ok bs → readGroup bs = .ok (t, [])) ∧
  (∀ t : Tag, t.wf = false → ∃ c, pack t = .error c)

/-- R111 to R115: the bytes of each variant as numbers, and the cause where a payload is out of its range. -/
def Obligations.PackBytesOfEachVariant : Prop :=
  (∀ p : Pixel, pack (.literal p) = .ok [0x0F#8, p.r, p.g, p.b]) ∧
  (∀ n : Nat, 2 ≤ n → n ≤ 62 → ∃ b : Byte, b.toNat = 0x40 + n ∧ pack (.run n) = .ok [b]) ∧
  (∀ n : Nat, n < 2 ∨ 62 < n → pack (.run n) = .error .invalidRunLength) ∧
  (∀ a : Slot, ∃ b : Byte, b.toNat = 0x80 + a.val ∧ pack (.index a) = .ok [b]) ∧
  (∀ dR dG dB : Int, (-2 ≤ dR ∧ dR ≤ 1) ∧ (-2 ≤ dG ∧ dG ≤ 1) ∧ (-2 ≤ dB ∧ dB ≤ 1) →
    ∃ b : Byte, (b.toNat : Int) = 0xC0 + 16 * (dR + 2) + 4 * (dG + 2) + (dB + 2) ∧
      pack (.diffShort dR dG dB) = .ok [b]) ∧
  (∀ dR dG dB : Int, ¬((-2 ≤ dR ∧ dR ≤ 1) ∧ (-2 ≤ dG ∧ dG ≤ 1) ∧ (-2 ≤ dB ∧ dB ≤ 1)) →
    pack (.diffShort dR dG dB) = .error .invalidDeltaRange) ∧
  (∀ dR dG dB : Int, (-8 ≤ dR ∧ dR ≤ 7) ∧ (-8 ≤ dG ∧ dG ≤ 7) ∧ (-8 ≤ dB ∧ dB ≤ 7) →
    ∃ b0 b1 : Byte, (b0.toNat : Int) = 0x30 + (dR + 8) ∧ (b1.toNat : Int) = 16 * (dG + 8) + (dB + 8) ∧
      pack (.diffLong dR dG dB) = .ok [b0, b1]) ∧
  (∀ dR dG dB : Int, ¬((-8 ≤ dR ∧ dR ≤ 7) ∧ (-8 ≤ dG ∧ dG ≤ 7) ∧ (-8 ≤ dB ∧ dB ≤ 7)) →
    pack (.diffLong dR dG dB) = .error .invalidDeltaRange)

/-- R57, R58: exactly the 47 first bytes 0x00 to 0x0E and 0x10 to 0x2F belong to no variant, and no group starts with
one. -/
def Obligations.ReservedFirstBytesAreNeverSent : Prop :=
  (∀ b : Byte, variantOf b = none ↔ b.toNat ≤ 0x0E ∨ (0x10 ≤ b.toNat ∧ b.toNat ≤ 0x2F)) ∧
  (∀ t : Tag, ∀ bs, pack t = .ok bs → ∃ b rest, bs = b :: rest ∧ (variantOf b).isSome = true)

/-- R62: every 25-bit word is a token; with `in_eos = 1` it is Eos whatever `in_pixel` is, with `in_eos = 0` the pixel
whose R, G, B are bits 23:16, 15:8, 7:0, and no other word with `in_eos = 0` is that pixel. -/
def Obligations.EveryTokenWordIsAToken : Prop :=
  (∀ w : TokenWord, 2 ^ 24 ≤ w.toNat → decodeToken w = .eos) ∧
  (∀ w : TokenWord, w.toNat < 2 ^ 24 →
    ∃ p : Pixel, decodeToken w = .pix p ∧ w.toNat = p.r.toNat * 65536 + p.g.toNat * 256 + p.b.toNat) ∧
  (∀ t : Token, decodeToken (encodeToken t) = t)

/-- R22: the tag bus carries every well-formed Tag. -/
def Obligations.TagBusCarriesEveryWellFormedTag : Prop :=
  ∀ t : Tag, t.wf = true → decodeBus (encodeBus t) = some t

/-- R22: a bus word is ill-formed exactly when its kind is above 4, or it is a Run whose bits 5:0 are 0, 1 or 63, or it
is a DiffShort some delta of which, read as signed, is outside [-2,1]. -/
def Obligations.IllFormedTagBusWords : Prop :=
  ∀ w : TagWord,
    ((decodeBus w = none ∨ ∃ t, decodeBus w = some t ∧ t.wf = false) ↔
      4 < w.toNat / 2 ^ 24 ∨
      (w.toNat / 2 ^ 24 = 1 ∧ (w.toNat % 64 = 0 ∨ w.toNat % 64 = 1 ∨ w.toNat % 64 = 63)) ∨
      (w.toNat / 2 ^ 24 = 3 ∧ ∃ k, k < 3 ∧ 2 ≤ w.toNat / 16 ^ k % 16 ∧ w.toNat / 16 ^ k % 16 ≤ 13))

/-- A few words written out from R51 to R55 and R62 decode to the instructions they stand for. That a group's number is
big-endian is the model's reading of R63, and that the two tokens of the last clauses, 25-bit words in R62 and R63, are
given as 32-bit numbers is the model's own choice (both log entry 4, DEDUCED). -/
def Obligations.SampleWordsDecode : Prop :=
  decodeTableWord 32 0b00001111000000010000001000000011 = some (.literal ⟨1, 2, 3⟩) ∧
  decodeTableWord 8 0b01000111 = some (.run 7) ∧
  decodeTableWord 8 0b10011110 = some (.index 30) ∧
  decodeTableWord 8 0b11101011 = some (.diffShort 0 0 1) ∧
  decodeTableWord 16 0b0011101100111111 = some (.diffLong 3 (-5) 7) ∧
  decodeTableWord 32 0b0000000101000000000000000000 = some (.pix ⟨20, 0, 0⟩) ∧
  decodeTableWord 32 0b1000000000000000000000000 = some .eos

/-! ## The step -/

/-- R129, R130, R146: at an edge without reset, the step is the meaning of the instruction the presented word decodes
to, on the state with that edge taken off the schedule and the edge's output beat done. Three things here are the
model's choice: that a tag row runs as a tag bus word (log entry 1), that the word stands on a schedule of edges (log
entry 2), and that the edge's output beat is done before the presented word is taken (log entry 13). -/
def Obligations.StepRunsThePresentedInstruction : Prop :=
  ∀ (s : State) (e : Edge) (rest : List Edge) (w : Presented) (i : Instr),
    s.edges = e :: rest → e.rst = false → e.presented = some w → fetch w = some i →
      step s = exec i (deliver e.outReady { s with edges := rest })

/-- A number of spec/opcode_table.json that the decoder reads as an instruction, stored to be fetched, is run by the
very next step (log entries 3 and 4). -/
def Obligations.FetchWordRunsTheTableInstruction : Prop :=
  ∀ (s : State) (nbits w : Nat) (i : Instr),
    decodeTableWord nbits w = some i → step (s.withFetchWord nbits w) = exec i s

/-- R157, log entry 2: with nothing presented, no reset and nothing taken by the consumer, the state is held. -/
def Obligations.IdleHoldsTheState : Prop :=
  (∀ s : State, s.edges = [] → step s = .next s) ∧
  (∀ (s : State) (e : Edge) (rest : List Edge),
    s.edges = e :: rest → e.rst = false → e.presented = none → (e.outReady = false ∨ s.pending = []) →
      step s = .next { s with edges := rest })

/-- R135, R136: an output beat transfers the item presented and nothing else. -/
def Obligations.OutputBeatTransfersOneItem : Prop :=
  ∀ (s : State) (e : Edge) (rest : List Edge) (x : OutItem) (left : List OutItem),
    s.edges = e :: rest → e.rst = false → e.presented = none → e.outReady = true → s.err = false →
      s.pending = x :: left →
        step s = .next { s with edges := rest, pending := left, sent := s.sent ++ [x] }

/-- R138, R151(c), R160: an edge with `rst = 1` gives every state element its reset value, whatever else is at that
edge and also out of the fault state; what was emitted and what was transferred stay so, no OutEos is produced. -/
def Obligations.ResetEdgeGivesTheResetState : Prop :=
  ∀ (s : State) (e : Edge) (rest : List Edge), s.edges = e :: rest → e.rst = true →
    ∃ t, step s = .next t ∧ (∀ a, cacheRead t.cache a = none) ∧ t.prev = none ∧ t.runAcc = 0 ∧ t.pos = 0 ∧
      t.err = false ∧ t.errCode = 0#2 ∧ t.pending = [] ∧ t.tags = s.tags ∧ t.out = s.out ∧ t.sent = s.sent ∧
      t.edges = rest

/-! ## The cache -/

/-- R70: the hash is the integer sum modulo 64, which is also what an 8-bit adder's sum gives, and does not depend on
the order of the channels. -/
def Obligations.HashIsTheChannelSumModulo64 : Prop :=
  ∀ r g b : Byte, (pixelHash ⟨r, g, b⟩).val = (r.toNat + g.toNat + b.toNat) % 64 ∧
    (pixelHash ⟨r, g, b⟩).val = (r + g + b).toNat % 64 ∧
    pixelHash ⟨r, g, b⟩ = pixelHash ⟨b, g, r⟩ ∧ pixelHash ⟨r, g, b⟩ = pixelHash ⟨g, r, b⟩

/-- R74, items a to e. -/
def Obligations.CacheLaws : Prop :=
  (∀ (c : Cache) (p : Pixel), cacheLookup (cacheInsert c p) p = some (pixelHash p) ∧ cacheRead (cacheInsert c p) (pixelHash p) = some p) ∧
  (∀ (c : Cache) (p q : Pixel), p ≠ q → pixelHash p = pixelHash q →
    cacheLookup (cacheInsert (cacheInsert c p) q) p = none ∧ cacheLookup (cacheInsert (cacheInsert c p) q) q = some (pixelHash q)) ∧
  (∀ (c : Cache) (p q : Pixel), pixelHash p ≠ pixelHash q → cacheLookup (cacheInsert c q) p = cacheLookup c p) ∧
  (∀ (c : Cache) (p : Pixel) (a : Slot), cacheLookup c p = some a → a = pixelHash p ∧ cacheRead c a = some p) ∧
  (∀ c : Cache, Cache.wf c → c.length ≤ 64) ∧
  (∀ (c : Cache) (p q : Pixel) (a b : Slot), cacheRead c a = some p → cacheRead c b = some q →
    pixelHash p = a → pixelHash q = b → pixelHash p = pixelHash q → p = q)

/-- R71, R72, R73: LOOKUP answers the pixel's own slot exactly when that slot is occupied by that very pixel; INSERT
writes its own slot whole whatever stood there, keeps the other 63 slots and the canonical form, and done twice is done
once; after CLEAR every slot is unoccupied. The canonical form (`Cache.wf`), which one clause concludes and one assumes,
is the model's choice of how the cache is held, no rule of the spec (log entry 7, DESIGN CHOICE). -/
def Obligations.CacheOperationsAndTheirFrames : Prop :=
  (∀ (c : Cache) (p : Pixel) (a : Slot), cacheLookup c p = some a ↔ a = pixelHash p ∧ cacheRead c a = some p) ∧
  (∀ (c : Cache) (p : Pixel), cacheRead c (pixelHash p) ≠ some p → cacheLookup c p = none) ∧
  (∀ (c : Cache) (p : Pixel), cacheRead (cacheInsert c p) (pixelHash p) = some p) ∧
  (∀ (c : Cache) (p : Pixel) (a : Slot), a ≠ pixelHash p → cacheRead (cacheInsert c p) a = cacheRead c a) ∧
  (∀ (c : Cache) (p : Pixel), Cache.wf c → Cache.wf (cacheInsert c p)) ∧
  (∀ (c : Cache) (p : Pixel), Cache.wf c → cacheInsert (cacheInsert c p) p = cacheInsert c p) ∧
  (∀ a : Slot, cacheRead cacheClear a = none) ∧
  (∀ p : Pixel, cacheLookup cacheClear p = none)

/-- R11, R30: two caches in canonical form that read the same in every slot are the same list, so that equal caches are
equal data (log entry 7). -/
def Obligations.CacheIsDeterminedByItsSlots : Prop :=
  ∀ c d : Cache, Cache.wf c → Cache.wf d → (∀ a, cacheRead c a = cacheRead d a) → c = d

/-! ## Selection -/

/-- R97: NORMAL takes the first that applies of hit, DiffShort, DiffLong, Literal, on the integer differences current
minus previous, and its Tag is well-formed. -/
def Obligations.NormalPathPriority : Prop :=
  ∀ (c : Cache) (prev : Option Pixel) (p : Pixel),
    (normal c prev p).wf = true ∧
    (cacheRead c (pixelHash p) = some p → normal c prev p = .index (pixelHash p)) ∧
    (cacheRead c (pixelHash p) ≠ some p → prev = none → normal c prev p = .literal p) ∧
    (∀ q : Pixel, ∀ dR dG dB : Int, cacheRead c (pixelHash p) ≠ some p → prev = some q →
      dR = (p.r.toNat : Int) - q.r.toNat → dG = (p.g.toNat : Int) - q.g.toNat → dB = (p.b.toNat : Int) - q.b.toNat →
      (((-2 ≤ dR ∧ dR ≤ 1) ∧ (-2 ≤ dG ∧ dG ≤ 1) ∧ (-2 ≤ dB ∧ dB ≤ 1)) → normal c prev p = .diffShort dR dG dB) ∧
      (¬((-2 ≤ dR ∧ dR ≤ 1) ∧ (-2 ≤ dG ∧ dG ≤ 1) ∧ (-2 ≤ dB ∧ dB ≤ 1)) →
        ((-8 ≤ dR ∧ dR ≤ 7) ∧ (-8 ≤ dG ∧ dG ≤ 7) ∧ (-8 ≤ dB ∧ dB ≤ 7)) → normal c prev p = .diffLong dR dG dB) ∧
      (¬((-8 ≤ dR ∧ dR ≤ 7) ∧ (-8 ≤ dG ∧ dG ≤ 7) ∧ (-8 ≤ dB ∧ dB ≤ 7)) → normal c prev p = .literal p))

/-- R101 item f, R93: when a Diff Tag is chosen, adding its deltas to the previous pixel stays in [0,255] in every channel
and gives the current pixel. -/
def Obligations.DiffTagsRecoverThePixel : Prop :=
  ∀ (c : Cache) (q p : Pixel) (dR dG dB : Int),
    normal c (some q) p = .diffShort dR dG dB ∨ normal c (some q) p = .diffLong dR dG dB →
      addDeltas q dR dG dB = some p

/-- R101 items b to e: under the invariant a pixel equal to `prev` is an Index of its hash, no pixel is
DiffShort(0,0,0) or a Diff of a pixel equal to its predecessor, a DiffLong has a delta outside [-2,1], and an Index
names the slot that holds the pixel. -/
def Obligations.NormalPathConsequences : Prop :=
  ∀ (s : State), CoreInv s →
    (∀ q, s.prev = some q → normal s.cache s.prev q = .index (pixelHash q)) ∧
    (∀ p, normal s.cache s.prev p ≠ .diffShort 0 0 0) ∧
    (∀ p dR dG dB, (normal s.cache s.prev p = .diffShort dR dG dB ∨ normal s.cache s.prev p = .diffLong dR dG dB) →
      s.prev ≠ some p) ∧
    (∀ p dR dG dB, normal s.cache s.prev p = .diffLong dR dG dB →
      ¬((-2 ≤ dR ∧ dR ≤ 1) ∧ (-2 ≤ dG ∧ dG ≤ 1) ∧ (-2 ≤ dB ∧ dB ≤ 1))) ∧
    (∀ p a, normal s.cache s.prev p = .index a → a = pixelHash p ∧ cacheRead s.cache a = some p)

/-! ## The packer's rows -/

/-! What a Tag presented on the tag bus does to `tags` beside its bytes is the model's reading (log entries 1, 11). -/

/-- R111: on a live machine a Literal appends itself to `tags` and 0x0F, R, G, B to the output; nothing else changes. -/
def Obligations.LiteralRowPacksFourBytes : Prop :=
  ∀ (s : State) (p : Pixel), s.err = false →
    exec (.literal p) s = .next
      { s with
        tags := s.tags ++ [.tag (.literal p)]
        out := s.out ++ [.byte 0x0F#8, .byte p.r, .byte p.g, .byte p.b]
        pending := s.pending ++ [.byte 0x0F#8, .byte p.r, .byte p.g, .byte p.b] }

/-- R112: a Run of a length in [2,62] appends the byte 0x40 + n; of any other length it takes InvalidRunLength, code 2,
with nothing emitted. -/
def Obligations.RunRowPacksItsCountOrFaults : Prop :=
  ∀ (s : State) (n : Nat), s.err = false →
    (2 ≤ n ∧ n ≤ 62 → ∃ b : Byte, b.toNat = 0x40 + n ∧
      exec (.run n) s = .next
        { s with tags := s.tags ++ [.tag (.run n)], out := s.out ++ [.byte b], pending := s.pending ++ [.byte b] }) ∧
    (¬(2 ≤ n ∧ n ≤ 62) → exec (.run n) s = .next { s with err := true, errCode := 2#2 })

/-- R113: an Index appends the byte 0x80 + s, for every slot. -/
def Obligations.IndexRowPacksItsSlot : Prop :=
  ∀ (s : State) (a : Slot), s.err = false → ∃ b : Byte, b.toNat = 0x80 + a.val ∧
    exec (.index a) s = .next
      { s with tags := s.tags ++ [.tag (.index a)], out := s.out ++ [.byte b], pending := s.pending ++ [.byte b] }

/-- R114: a DiffShort with every delta in [-2,1] appends the byte 0xC0 + 16(dR+2) + 4(dG+2) + (dB+2); with any other it
takes InvalidDeltaRange, code 1, with nothing emitted. -/
def Obligations.DiffShortRowPacksItsDeltasOrFaults : Prop :=
  ∀ (s : State) (dR dG dB : Int), s.err = false →
    ((-2 ≤ dR ∧ dR ≤ 1) ∧ (-2 ≤ dG ∧ dG ≤ 1) ∧ (-2 ≤ dB ∧ dB ≤ 1) →
      ∃ b : Byte, (b.toNat : Int) = 0xC0 + 16 * (dR + 2) + 4 * (dG + 2) + (dB + 2) ∧
        exec (.diffShort dR dG dB) s = .next
          { s with
            tags := s.tags ++ [.tag (.diffShort dR dG dB)]
            out := s.out ++ [.byte b]
            pending := s.pending ++ [.byte b] }) ∧
    (¬((-2 ≤ dR ∧ dR ≤ 1) ∧ (-2 ≤ dG ∧ dG ≤ 1) ∧ (-2 ≤ dB ∧ dB ≤ 1)) →
      exec (.diffShort dR dG dB) s = .next { s with err := true, errCode := 1#2 })

/-- R115: a DiffLong with every delta in [-8,7] appends the bytes 0x30 + (dR+8) and 16(dG+8) + (dB+8), in that order;
with any other it takes InvalidDeltaRange, code 1, with nothing emitted. -/
def Obligations.DiffLongRowPacksItsDeltasOrFaults : Prop :=
  ∀ (s : State) (dR dG dB : Int), s.err = false →
    ((-8 ≤ dR ∧ dR ≤ 7) ∧ (-8 ≤ dG ∧ dG ≤ 7) ∧ (-8 ≤ dB ∧ dB ≤ 7) →
      ∃ b0 b1 : Byte, (b0.toNat : Int) = 0x30 + (dR + 8) ∧ (b1.toNat : Int) = 16 * (dG + 8) + (dB + 8) ∧
        exec (.diffLong dR dG dB) s = .next
          { s with
            tags := s.tags ++ [.tag (.diffLong dR dG dB)]
            out := s.out ++ [.byte b0, .byte b1]
            pending := s.pending ++ [.byte b0, .byte b1] }) ∧
    (¬((-8 ≤ dR ∧ dR ≤ 7) ∧ (-8 ≤ dG ∧ dG ≤ 7) ∧ (-8 ≤ dB ∧ dB ≤ 7)) →
      exec (.diffLong dR dG dB) s = .next { s with err := true, errCode := 1#2 })

/-! ## The token rows -/

/-- R129: a repeat below the cap is counted, and nothing else changes. -/
def Obligations.PixRepeatIsCounted : Prop :=
  ∀ (s : State) (p : Pixel), s.err = false → s.prev = some p → s.runAcc < 61 →
    exec (.pix p) s = .next { s with runAcc := s.runAcc + 1 }

/-- R129, R82: the 62nd repeat emits Run(62) at once; `prev` is unchanged and counting starts again from 0. -/
def Obligations.PixRepeatAtTheCapEmitsRun62 : Prop :=
  ∀ (s : State) (p : Pixel), s.err = false → s.prev = some p → s.runAcc = 61 →
    exec (.pix p) s = .next
      { s with
        runAcc := 0
        cache := cacheInsert s.cache p
        pos := s.pos + 62
        tags := s.tags ++ [.tag (.run 62)]
        out := s.out ++ [.byte 0x7E#8]
        pending := s.pending ++ [.byte 0x7E#8] }

/-- R129: with nothing pending, a first or a differing pixel emits its normal-path Tag, is inserted and becomes
`prev`. -/
def Obligations.PixOnTheNormalPath : Prop :=
  ∀ (s : State) (p : Pixel), s.err = false → s.prev ≠ some p → s.runAcc = 0 →
    exec (.pix p) s = .next
      { s with
        cache := cacheInsert s.cache p
        prev := some p
        pos := s.pos + 1
        tags := s.tags ++ [.tag (normal s.cache s.prev p)]
        out := s.out ++ (packBytes (normal s.cache s.prev p)).map .byte
        pending := s.pending ++ (packBytes (normal s.cache s.prev p)).map .byte }

/-- R129: a differing pixel closes a pending run of 2 to 62 repeats: the Run, then the pixel's own Tag on the cache and
`prev` as the Run left them. -/
def Obligations.PixClosesAPendingRun : Prop :=
  ∀ (s : State) (p q : Pixel), s.err = false → s.prev = some q → q ≠ p → 2 ≤ s.runAcc → s.runAcc ≤ 62 →
    ∃ b : Byte, b.toNat = 0x40 + s.runAcc ∧
      exec (.pix p) s = .next
        { s with
          runAcc := 0
          cache := cacheInsert (cacheInsert s.cache q) p
          prev := some p
          pos := s.pos + s.runAcc + 1
          tags := s.tags ++ [.tag (.run s.runAcc), .tag (normal (cacheInsert s.cache q) (some q) p)]
          out := s.out ++ .byte b :: (packBytes (normal (cacheInsert s.cache q) (some q) p)).map .byte
          pending := s.pending ++ .byte b :: (packBytes (normal (cacheInsert s.cache q) (some q) p)).map .byte }

/-- R129: a differing pixel after a single repeat: the deferred repeat's own Tag, which is an Index where the cache holds
`prev`, then the pixel's. -/
def Obligations.PixAfterASingleRepeat : Prop :=
  ∀ (s : State) (p q : Pixel), s.err = false → s.prev = some q → q ≠ p → s.runAcc = 1 →
    cacheRead s.cache (pixelHash q) = some q → ∃ b : Byte, b.toNat = 0x80 + (pixelHash q).val ∧
      exec (.pix p) s = .next
        { s with
          runAcc := 0
          cache := cacheInsert (cacheInsert s.cache q) p
          prev := some p
          pos := s.pos + 2
          tags := s.tags ++ [.tag (.index (pixelHash q)), .tag (normal (cacheInsert s.cache q) (some q) p)]
          out := s.out ++ .byte b :: (packBytes (normal (cacheInsert s.cache q) (some q) p)).map .byte
          pending := s.pending ++ .byte b :: (packBytes (normal (cacheInsert s.cache q) (some q) p)).map .byte }

/-- R130: Eos with nothing pending: OutEos and the mark, then the state in which a run begins. -/
def Obligations.EosWithNothingPending : Prop :=
  ∀ s : State, s.err = false → s.runAcc = 0 →
    exec .eos s = .next
      { s with
        cache := []
        prev := none
        pos := 0
        tags := s.tags ++ [.runEnd]
        out := s.out ++ [.eos]
        pending := s.pending ++ [.eos] }

/-- R130: Eos closes a pending run of 2 to 62 repeats before OutEos. -/
def Obligations.EosClosesAPendingRun : Prop :=
  ∀ s : State, s.err = false → 2 ≤ s.runAcc → s.runAcc ≤ 62 →
    ∃ b : Byte, b.toNat = 0x40 + s.runAcc ∧
      exec .eos s = .next
        { s with
          cache := []
          prev := none
          runAcc := 0
          pos := 0
          tags := s.tags ++ [.tag (.run s.runAcc), .runEnd]
          out := s.out ++ [.byte b, .eos]
          pending := s.pending ++ [.byte b, .eos] }

/-- R130: Eos sends a single pending repeat down the normal path, where the cache holds `prev` an Index, before
OutEos. -/
def Obligations.EosClosesASingleRepeat : Prop :=
  ∀ (s : State) (q : Pixel), s.err = false → s.runAcc = 1 → s.prev = some q →
    cacheRead s.cache (pixelHash q) = some q → ∃ b : Byte, b.toNat = 0x80 + (pixelHash q).val ∧
      exec .eos s = .next
        { s with
          cache := []
          prev := none
          runAcc := 0
          pos := 0
          tags := s.tags ++ [.tag (.index (pixelHash q)), .runEnd]
          out := s.out ++ [.byte b, .eos]
          pending := s.pending ++ [.byte b, .eos] }

/-- R100: in the state in which a run begins, the first pixel is a Literal, whatever its value; then R99 inserts it, and
into no other slot, and sets `prev`. -/
def Obligations.FirstPixelOfARunIsLiteral : Prop :=
  ∀ (s : State) (p : Pixel), RunStart s →
    ∃ t, exec (.pix p) s = .next t ∧ t.tags = s.tags ++ [.tag (.literal p)] ∧ t.prev = some p ∧ t.pos = 1 ∧
      (∀ a, cacheRead t.cache a = if a = pixelHash p then some p else none)

/-- R132: the table of what one token can cause, `new` being the bytes. -/
def Obligations.TokenBursts : Prop :=
  ∀ s : State, CoreInv s → s.err = false →
    (∀ p, s.prev = some p → ∃ t, exec (.pix p) s = .next t ∧
      ((s.runAcc < 61 ∧ t.tags = s.tags ∧ t.out = s.out) ∨
       (s.runAcc = 61 ∧ t.tags = s.tags ++ [.tag (.run 62)] ∧ ∃ b, t.out = s.out ++ [.byte b]))) ∧
    (∀ p, s.prev ≠ some p → ∃ (t : State) (u : Tag) (new : List Byte),
      exec (.pix p) s = .next t ∧ t.out = s.out ++ new.map .byte ∧
        ((s.runAcc = 0 ∧ t.tags = s.tags ++ [.tag u] ∧ new.length ∈ [1, 2, 4]) ∨
         (s.runAcc = 1 ∧ (∃ q, s.prev = some q ∧ t.tags = s.tags ++ [.tag (.index (pixelHash q)), .tag u]) ∧
            new.length ∈ [2, 3, 5]) ∨
         (2 ≤ s.runAcc ∧ t.tags = s.tags ++ [.tag (.run s.runAcc), .tag u] ∧ new.length ∈ [2, 3, 5]))) ∧
    (∃ t, exec .eos s = .next t ∧
      ((s.runAcc = 0 ∧ t.tags = s.tags ++ [.runEnd] ∧ t.out = s.out ++ [.eos]) ∨
       (1 ≤ s.runAcc ∧ (∃ v : Tag, t.tags = s.tags ++ [.tag v, .runEnd]) ∧ ∃ b, t.out = s.out ++ [.byte b, .eos])))

/-- R72, R91, R99, R129: a pixel writes no cache slot but its own, and a repeat writes none. -/
def Obligations.PixWritesOnlyItsOwnSlot : Prop :=
  ∀ (s t : State) (p : Pixel), CoreInv s → exec (.pix p) s = .next t →
    (∀ a, a ≠ pixelHash p → cacheRead t.cache a = cacheRead s.cache a) ∧ (s.prev = some p → t.cache = s.cache)

/-- R164, R165: of three pixels a, b, a with one hash and a, b different, none comes out as an Index of the slot another
has taken: b misses on content and the second a was evicted. -/
def Obligations.CollidingPixelsEvictEachOther : Prop :=
  ∀ (s s1 s2 s3 : State) (a b : Pixel), CoreInv s → a ≠ b → pixelHash a = pixelHash b →
    exec (.pix a) s = .next s1 → exec (.pix b) s1 = .next s2 → exec (.pix a) s2 = .next s3 →
      (∃ u, s2.tags.getLast? = some (.tag u) ∧ ∀ slot, u ≠ .index slot) ∧
      (∃ u, s3.tags.getLast? = some (.tag u) ∧ ∀ slot, u ≠ .index slot)

/-! ## The fault -/

/-- R147, R148, log entry 11: an ill-formed Tag presented to a live machine takes its fault: `err` becomes 1, `err_code` the cause's
code, and nothing else changes, no byte of the Tag among it; so does a bus word of kind 5, 6 or 7. -/
def Obligations.IllFormedTagTakesTheFault : Prop :=
  ∀ (s : State) (e : Edge) (rest : List Edge) (w : TagWord),
    s.edges = e :: rest → e.rst = false → e.presented = some (.tagWord w) → e.outReady = false → s.err = false →
      (decodeBus w = none → step s = .next { s with edges := rest, err := true, errCode := 3#2 }) ∧
      (∀ n, decodeBus w = some (.run n) → ¬(2 ≤ n ∧ n ≤ 62) →
        step s = .next { s with edges := rest, err := true, errCode := 2#2 }) ∧
      (∀ dR dG dB, decodeBus w = some (.diffShort dR dG dB) →
        ¬((-2 ≤ dR ∧ dR ≤ 1) ∧ (-2 ≤ dG ∧ dG ≤ 1) ∧ (-2 ≤ dB ∧ dB ≤ 1)) →
        step s = .next { s with edges := rest, err := true, errCode := 1#2 })

/-- R148, R149, log entry 12: while `err` is 1 the machine is stuck for every instruction, and an edge without reset that answers a next
state changes nothing but the schedule: nothing is emitted or transferred and `err`, `err_code` stay. -/
def Obligations.FaultedMachineIsStuckUntilReset : Prop :=
  (∀ (s : State) (i : Instr), s.err = true → exec i s = .fault (.stuckUntilReset s.errCode)) ∧
  (∀ (s t : State) (e : Edge) (rest : List Edge), s.edges = e :: rest → s.err = true → e.rst = false →
    step s = .next t → e.presented = none ∧ t = { s with edges := rest })

/-- R146: under the invariant, with nothing but the selector on the tag bus and whatever tokens, resets and consumer,
every number of edges answers a next state with `err` 0 and the invariant kept: no fault is reachable. The schedule of edges is
the model's form of the environment (log entry 2). -/
def Obligations.ComposedHardwareNeverFaults : Prop :=
  ∀ (k : Nat) (s : State), CoreInv s → s.err = false → (∀ e ∈ s.edges, e.composed = true) →
    ∃ t, runs k s = .next t ∧ CoreInv t ∧ t.err = false

/-! ## Invariants of every step -/

/-- R19: the reset state meets the invariants. -/
def Obligations.ResetStateMeetsTheInvariants : Prop :=
  CoreInv State.reset ∧ RepresentsRun State.reset ∧ RunStart State.reset

/-- R18, R16, R15: every step of the machine keeps the invariant, whatever is presented to it. -/
def Obligations.EveryStepKeepsTheInvariant : Prop :=
  ∀ s t : State, CoreInv s → step s = .next t → CoreInv t

/-- R12, R18 item 1, R170: every step of the composed hardware keeps the relation between the Tags emitted and the
machine: a decoder of the run's Tags has the machine's own cache and `prev` and has given out `pos` pixels. -/
def Obligations.EmittedTagsRepresentTheRun : Prop :=
  ∀ s t : State, CoreInv s → RepresentsRun s → (∀ e ∈ s.edges, e.composed = true) → step s = .next t →
    RepresentsRun t

/-- R15: nothing emitted or transferred is ever changed or withdrawn: every step only appends. -/
def Obligations.HistoriesOnlyGrow : Prop :=
  ∀ s t : State, step s = .next t → s.tags <+: t.tags ∧ s.out <+: t.out ∧ s.sent <+: t.sent

/-- R136: what has been transferred and what is pending are together what was emitted, so that the transferred items are
a prefix of it; every step without reset keeps that. -/
def Obligations.TransferredItemsAreAPrefixOfTheOutput : Prop :=
  ∀ (s t : State), s.out = s.sent ++ s.pending → (∀ e rest, s.edges = e :: rest → e.rst = false) → step s = .next t →
    t.out = t.sent ++ t.pending ∧ t.sent <+: t.out

/-- R22, R137: the words the monitor has shown, read as bus words, are the Tags of the history, in order. -/
def Obligations.MonitorShowsTheTagHistory : Prop :=
  ∀ s : State, CoreInv s →
    (monitorWords s.tags).map decodeBus =
      (s.tags.filterMap fun | .tag t => some t | .runEnd => none).map some

/-! ## Runs -/

/-- R80: RUNLEN counts the pixels equal to `q` from position `i` on, up to 62, and stops only at the cap, at the end of
the input or at a differing pixel. -/
def Obligations.RunLengthCountsRepeatsUpToTheCap : Prop :=
  ∀ (q : Pixel) (seq : List Pixel) (i : Nat),
    runLen q seq i ≤ 62 ∧ (∀ j, j < runLen q seq i → seq[i + j]? = some q) ∧
      (runLen q seq i = 62 ∨ seq[i + runLen q seq i]? ≠ some q)

/-- R131: from the state in which a run begins, the tokens of a sequence and Eos append exactly COMPRESS(seq) to `tags`
and BYTES(seq), then OutEos, to `out`, and lead back to that state; just before the Eos the cache and `prev` are those of
the batch form after its last step (an INSERT still due is redundant, so the caches are equal).
That the tokens stand on `edges` and the items in `pending` is the model's (log entries 2 and 13). -/
def Obligations.StreamingFormComputesTheBatchForm : Prop :=
  ∀ (s : State) (seq : List Pixel) (rest : List Edge), RunStart s → s.edges = runEdges seq ++ rest →
    runs (seq.length + 1) s = .next
      { s with
        tags := s.tags ++ (compress seq).map .tag ++ [.runEnd]
        out := s.out ++ (compressedBytes seq).map .byte ++ [.eos]
        pending := s.pending ++ (compressedBytes seq).map .byte ++ [.eos]
        edges := rest } ∧
    ∃ u, runs seq.length s = .next u ∧ u.cache = (scanLoop seq seq.length scanStart).cache ∧
      u.prev = (scanLoop seq seq.length scanStart).prev

/-- R133: the output of a run depends on that run's input alone: two runs back to back give what each gives, whatever
the state's histories hold. That the tokens stand on `edges` is the model's (log entry 2). -/
def Obligations.NothingSurvivesARun : Prop :=
  ∀ (s : State) (seqA seqB : List Pixel) (rest : List Edge), RunStart s →
    s.edges = runEdges seqA ++ runEdges seqB ++ rest →
      ∃ t, runs (seqA.length + seqB.length + 2) s = .next t ∧ RunStart t ∧ t.edges = rest ∧
        t.tags = s.tags ++ (compress seqA).map .tag ++ [.runEnd] ++ (compress seqB).map .tag ++ [.runEnd] ∧
        t.out = s.out ++ (compressedBytes seqA).map .byte ++ [.eos] ++ (compressedBytes seqB).map .byte ++ [.eos]

/-- R132, R170: after the pixels of a sequence without Eos, at most 61 of them are pending, and the Tags emitted are those
of the others, a prefix of COMPRESS of every input that begins with the sequence. -/
def Obligations.OutputLagsByAtMost61Pixels : Prop :=
  ∀ (s : State) (seq : List Pixel) (rest : List Edge), RunStart s →
    s.edges = seq.map (fun p => tokenEdge (.pix p) false) ++ rest →
      ∃ (t : State) (ts : List Tag), runs seq.length s = .next t ∧ t.runAcc ≤ 61 ∧ t.pos + t.runAcc = seq.length ∧
        t.tags = s.tags ++ ts.map .tag ∧ ts = compress (seq.take t.pos) ∧ ∀ more, ts <+: compress (seq ++ more)

/-- R136: what is produced does not depend on when beats happen. A schedule of tokens with any idle edges between them and
any readiness of the consumer leads to the state the tokens alone lead to, but for how much of the output has been
transferred. -/
def Obligations.TimingOfBeatsDoesNotChangeTheOutput : Prop :=
  ∀ (s : State) (es rest : List Edge), CoreInv s → s.err = false → s.edges = es ++ rest →
    (∀ e ∈ es, e.rst = false ∧ e.composed = true) →
      ∃ t u : State, runs es.length s = .next t ∧
        runs (es.filterMap Edge.token?).length
          { s with edges := (es.filterMap Edge.token?).map (tokenEdge · false) ++ rest } = .next u ∧
        t = { u with pending := t.pending, sent := t.sent } ∧
        t.sent ++ t.pending = u.sent ++ u.pending ∧ s.sent <+: t.sent

/-- R136, R139: with a consumer that is ready again and again, a run completes: after its tokens and one ready edge for
each of its items, every byte of BYTES(seq) and then OutEos has been transferred, in order, `tags` holds COMPRESS(seq) for
the run, the state is the one in which a run begins, and `err` is 0. -/
def Obligations.ARunCompletesWhenTheConsumerIsReady : Prop :=
  ∀ (s : State) (seq : List Pixel) (rest : List Edge), RunStart s → s.pending = [] →
    s.edges = runEdges seq ++
      List.replicate ((compressedBytes seq).length + 1) { rst := false, presented := none, outReady := true } ++ rest →
      ∃ t, runs (seq.length + 1 + ((compressedBytes seq).length + 1)) s = .next t ∧
        t.sent = s.sent ++ (compressedBytes seq).map .byte ++ [.eos] ∧ t.pending = [] ∧
        t.tags = s.tags ++ (compress seq).map .tag ++ [.runEnd] ∧ RunStart t ∧
        runsComplete t = runsComplete s + 1

/-- R101 item a, R85 items d and e, R100: the Tags of an input are well-formed, the first is the Literal of the first
pixel, and two Run Tags are adjacent only when the first is Run(62). -/
def Obligations.CompressedTagsAreWellFormedAndOrdered : Prop :=
  ∀ seq : List Pixel,
    (∀ t ∈ compress seq, t.wf = true) ∧
    (∀ p rest, seq = p :: rest → (compress seq).head? = some (.literal p)) ∧
    (∀ i m n, (compress seq)[i]? = some (.run m) → (compress seq)[i + 1]? = some (.run n) → m = 62)

/-- R82: k repeats after a first occurrence are floor(k/62) Tags Run(62), then nothing, an Index, or a Run of what is
left. -/
def Obligations.LongRunsSplitAtTheCap : Prop :=
  ∀ (p : Pixel) (k : Nat),
    compress (List.replicate (k + 1) p) =
      .literal p :: (List.replicate (k / 62) (.run 62) ++
        (if k % 62 = 0 then [] else if k % 62 = 1 then [.index (pixelHash p)] else [.run (k % 62)]))

/-- R128: an empty input gives no Tag and no byte; otherwise the number of Tags is between 1 + ceil((len-1)/62) and len,
and the number of bytes between 4 + ceil((len-1)/62) and 4 len. -/
def Obligations.CompressedSizeBounds : Prop :=
  compress [] = [] ∧ compressedBytes [] = [] ∧
  ∀ seq : List Pixel, 1 ≤ seq.length →
    1 + (seq.length - 1 + 61) / 62 ≤ (compress seq).length ∧ (compress seq).length ≤ seq.length ∧
    4 + (seq.length - 1 + 61) / 62 ≤ (compressedBytes seq).length ∧ (compressedBytes seq).length ≤ 4 * seq.length

/-- E1 of 95_test_vectors.md: the reference decoder recovers every input from its bytes. -/
def Obligations.DecoderRecoversEveryInput : Prop :=
  ∀ seq : List Pixel, decodeStream (compressedBytes seq) = some seq
end

