-- ==== Sys2Proof/Laws/Basics.lean ====
section
/-! SUPPORT. The parameters as numerals, the packer's check against `Tag.wf`, and what PACK answers. -/

namespace Sys2Proof.Machine

@[simp] theorem config_chBits : config.chBits = 8 := rfl
@[simp] theorem config_nCh : config.nCh = 3 := rfl
@[simp] theorem config_slotBits : config.slotBits = 6 := rfl
@[simp] theorem config_dsBits : config.dsBits = 2 := rfl
@[simp] theorem config_dlBits : config.dlBits = 4 := rfl
@[simp] theorem pixelBits_eq : pixelBits = 24 := rfl
@[simp] theorem tokenBits_eq : tokenBits = 25 := rfl
@[simp] theorem config_nSlots : config.nSlots = 64 := rfl
@[simp] theorem config_runMin : config.runMin = 2 := rfl
@[simp] theorem config_runMax : config.runMax = 62 := rfl
@[simp] theorem config_dsMin : config.dsMin = -2 := rfl
@[simp] theorem config_dsMax : config.dsMax = 1 := rfl
@[simp] theorem config_dlMin : config.dlMin = -8 := rfl
@[simp] theorem config_dlMax : config.dlMax = 7 := rfl
@[simp] theorem config_idLiteral : config.idLiteral = 0x0F#8 := rfl
@[simp] theorem config_idRun : config.idRun = 0b01#2 := rfl
@[simp] theorem config_idIndex : config.idIndex = 0b10#2 := rfl
@[simp] theorem config_idDiffShort : config.idDiffShort = 0b11#2 := rfl
@[simp] theorem config_idDiffLong : config.idDiffLong = 0b0011#4 := rfl

/-! ## The identifiers in their places (R52 to R55) -/

@[simp] theorem leading_run : leading 0b01#2 6 = 0x40#8 := by decide
@[simp] theorem leading_index : leading 0b10#2 6 = 0x80#8 := by decide
@[simp] theorem leading_diffShort : leading 0b11#2 6 = 0xC0#8 := by decide
@[simp] theorem leading_diffLong : leading 0b0011#4 4 = 0x30#8 := by decide

/-! ## Bytes, rows, Tags -/

/-- R6: a byte's range. -/
theorem byte_lt (b : Byte) : b.toNat < 256 := b.isLt

/-- R57: the tag rows as numerals. -/
theorem tagRows_eq :
    tagRows =
      [ ⟨.literal, 0xFF#8, 0x0F#8, 4⟩,
        ⟨.diffLong, 0xF0#8, 0x30#8, 2⟩,
        ⟨.run, 0xC0#8, 0x40#8, 1⟩,
        ⟨.index, 0xC0#8, 0x80#8, 1⟩,
        ⟨.diffShort, 0xC0#8, 0xC0#8, 1⟩ ] := by decide

/-- R112: the byte of a Run, as numerals. -/
theorem packBytes_run (n : Nat) : packBytes (.run n) = [0x40#8 ||| BitVec.ofNat 8 n] := rfl

/-- R113: the byte of an Index, as numerals. -/
theorem packBytes_index (s : Slot) : packBytes (.index s) = [0x80#8 ||| BitVec.ofNat 8 s.val] := rfl

/-- R114: the byte of a DiffShort, as numerals. -/
theorem packBytes_diffShort (dR dG dB : Int) :
    packBytes (.diffShort dR dG dB) =
      [0xC0#8 ||| (BitVec.ofInt 8 (dR + 2) <<< 4) ||| (BitVec.ofInt 8 (dG + 2) <<< 2) ||| BitVec.ofInt 8 (dB + 2)] := rfl

/-- R115: the bytes of a DiffLong, as numerals. -/
theorem packBytes_diffLong (dR dG dB : Int) :
    packBytes (.diffLong dR dG dB) =
      [0x30#8 ||| BitVec.ofInt 8 (dR + 8), (BitVec.ofInt 8 (dG + 8) <<< 4) ||| BitVec.ofInt 8 (dB + 8)] := rfl

/-- R22, R62: the pixel read from a word whose low 24 bits are the channels side by side. -/
theorem pixelOfWord_append {k : Nat} (w : BitVec k) (p : Pixel) : pixelOfWord (w ++ p.r ++ p.g ++ p.b) = p := by
  obtain ⟨r, g, b⟩ := p
  simp only [pixelOfWord, Pixel.mk.injEq]
  refine ⟨?_, ?_, ?_⟩ <;> apply BitVec.eq_of_getLsbD_eq <;> intro i hi <;> replace hi : i < 8 := hi <;>
    simp only [BitVec.getLsbD_extractLsb', BitVec.getLsbD_append] <;>
    simp [hi, show ¬ 16 + i < 8 by omega, show ¬ 8 + i < 8 by omega, show ¬ 16 + i - 8 < 8 by omega,
      show 16 + i - 8 - 8 = i by omega]

/-- The range test, as a proposition. -/
theorem inRange_iff {lo hi d : Int} : inRange lo hi d = true ↔ lo ≤ d ∧ d ≤ hi := by simp [inRange]

/-- R94's test, as a proposition. -/
theorem fitsShort_iff {d : Deltas} :
    fitsShort d = true ↔ (-2 ≤ d.dR ∧ d.dR ≤ 1) ∧ (-2 ≤ d.dG ∧ d.dG ≤ 1) ∧ (-2 ≤ d.dB ∧ d.dB ≤ 1) := by
  simp [fitsShort, inRange_iff, and_assoc]

/-- R95's test, as a proposition. -/
theorem fitsLong_iff {d : Deltas} :
    fitsLong d = true ↔ (-8 ≤ d.dR ∧ d.dR ≤ 7) ∧ (-8 ≤ d.dG ∧ d.dG ≤ 7) ∧ (-8 ≤ d.dB ∧ d.dB ≤ 7) := by
  simp [fitsLong, inRange_iff, and_assoc]

/-- The packer's check finds nothing wrong exactly with the well-formed Tags of R7. -/
theorem tagCause_eq_none_iff {t : Tag} : tagCause t = none ↔ t.wf = true := by
  cases t with
  | literal p => simp [tagCause, Tag.wf]
  | run n => simp [tagCause, Tag.wf]
  | index s => simp [tagCause, Tag.wf]
  | diffShort dR dG dB => simp [tagCause, Tag.wf, fitsShort_iff, List.all_cons, and_assoc]
  | diffLong dR dG dB => simp [tagCause, Tag.wf, fitsLong_iff, List.all_cons, and_assoc]

/-- R110: PACK on a well-formed Tag. -/
theorem pack_of_wf {t : Tag} (h : t.wf = true) : pack t = .ok (packBytes t) := by
  simp [pack, tagCause_eq_none_iff.2 h]

/-- R116: PACK on any other. -/
theorem pack_of_cause {t : Tag} {c : Cause} (h : tagCause t = some c) : pack t = .error c := by simp [pack, h]

/-- Two pixels are equal when their channels are. -/
theorem pixel_ext {p q : Pixel} (hr : p.r = q.r) (hg : p.g = q.g) (hb : p.b = q.b) : p = q := by
  cases p; cases q; simp_all

/-- R70: the slot as a number. -/
theorem pixelHash_val (p : Pixel) : (pixelHash p).val = (p.r.toNat + p.g.toNat + p.b.toNat) % 64 := rfl

end Sys2Proof.Machine
end

