-- ==== Sys2Proof/Laws/Cache.lean ====
section
/-! SUPPORT. The cache: reads after writes, the canonical form, LOOKUP and INSERT. -/

namespace Sys2Proof.Machine

/-- A read of the slot just written. -/
@[simp] theorem cacheRead_write_same (c : Cache) (a : Slot) (p : Pixel) : cacheRead (cacheWrite c a p) a = some p := by
  induction c with
  | nil => simp [cacheWrite, cacheRead]
  | cons e rest ih =>
    obtain ⟨k, q⟩ := e
    simp only [cacheWrite]
    split
    · simp [cacheRead]
    · split
      · simp [cacheRead]
      · simp [cacheRead, *]

/-- A read of any other slot. -/
theorem cacheRead_write_other {c : Cache} {a b : Slot} {p : Pixel} (h : a ≠ b) :
    cacheRead (cacheWrite c a p) b = cacheRead c b := by
  induction c with
  | nil => simp [cacheWrite, cacheRead, h]
  | cons e rest ih =>
    obtain ⟨k, q⟩ := e
    simp only [cacheWrite]
    split
    · simp [cacheRead, h]
    · split
      · rename_i hk; subst hk; simp [cacheRead, h]
      · simp only [cacheRead, ih]

/-- R73: after CLEAR every slot is unoccupied. -/
@[simp] theorem cacheRead_clear (a : Slot) : cacheRead cacheClear a = none := rfl

/-- CLEAR leaves the canonical form. -/
theorem cacheClear_wf : Cache.wf cacheClear := List.Pairwise.nil

/-- What a write can list: the written pair and what was listed. -/
theorem mem_cacheWrite {c : Cache} {a : Slot} {p : Pixel} {e : Slot × Pixel} (h : e ∈ cacheWrite c a p) :
    e = (a, p) ∨ e ∈ c := by
  induction c with
  | nil => simpa [cacheWrite] using h
  | cons x rest ih =>
    obtain ⟨k, q⟩ := x
    simp only [cacheWrite] at h
    split at h
    · simpa using h
    · split at h
      · rcases List.mem_cons.1 h with h | h
        · exact .inl h
        · exact .inr (List.mem_cons_of_mem _ h)
      · rcases List.mem_cons.1 h with h | h
        · exact .inr (h ▸ List.mem_cons_self)
        · exact (ih h).imp id (List.mem_cons_of_mem _)

/-- Every write keeps the canonical form. -/
theorem cacheWrite_wf {c : Cache} (h : Cache.wf c) (a : Slot) (p : Pixel) : Cache.wf (cacheWrite c a p) := by
  induction c with
  | nil => simp [cacheWrite, Cache.wf]
  | cons x rest ih =>
    obtain ⟨k, q⟩ := x
    obtain ⟨hk, hrest⟩ := List.pairwise_cons.1 h
    simp only [cacheWrite]
    split
    · rename_i hlt
      refine List.pairwise_cons.2 ⟨fun e he => ?_, h⟩
      rcases List.mem_cons.1 he with rfl | he
      · exact hlt
      · exact hlt.trans (hk e he)
    · split
      · rename_i hka; subst hka
        exact List.pairwise_cons.2 ⟨hk, hrest⟩
      · rename_i hlt hne
        refine List.pairwise_cons.2 ⟨fun e he => ?_, ih hrest⟩
        rcases mem_cacheWrite he with rfl | he
        · exact lt_of_le_of_ne (not_lt.1 hlt) hne
        · exact hk e he

/-- A slot below every listed one is unoccupied. -/
theorem cacheRead_eq_none_of_lt {c : Cache} {a : Slot} (h : ∀ e ∈ c, a < e.1) : cacheRead c a = none := by
  induction c with
  | nil => rfl
  | cons x rest ih =>
    obtain ⟨k, q⟩ := x
    have hk : a < k := h (k, q) List.mem_cons_self
    simp only [cacheRead, if_neg (ne_of_gt hk)]
    exact ih fun e he => h e (List.mem_cons_of_mem _ he)

/-- R32, R74: writing what the slot already holds changes nothing. -/
theorem cacheWrite_of_read {c : Cache} {a : Slot} {p : Pixel} (hwf : Cache.wf c) (h : cacheRead c a = some p) :
    cacheWrite c a p = c := by
  induction c with
  | nil => simp [cacheRead] at h
  | cons x rest ih =>
    obtain ⟨k, q⟩ := x
    obtain ⟨hk, hrest⟩ := List.pairwise_cons.1 hwf
    simp only [cacheRead] at h
    split at h
    · rename_i hka; subst hka
      simp_all [cacheWrite]
    · rename_i hne
      have hlt : ¬ a < k := fun hlt => by
        have : cacheRead rest a = none := cacheRead_eq_none_of_lt fun e he => hlt.trans (hk e he)
        simp [this] at h
      simp [cacheWrite, hlt, hne, ih hrest h]

/-- R71 (d of R74): what a hit says. -/
theorem cacheLookup_eq_some_iff {c : Cache} {p : Pixel} {s : Slot} :
    cacheLookup c p = some s ↔ s = pixelHash p ∧ cacheRead c (pixelHash p) = some p := by
  by_cases h : cacheRead c (pixelHash p) = some p <;> simp [cacheLookup, isHit, h, eq_comm]

/-- R71: what a miss says. -/
theorem cacheLookup_eq_none_iff {c : Cache} {p : Pixel} : cacheLookup c p = none ↔ cacheRead c (pixelHash p) ≠ some p := by
  simp [cacheLookup, isHit]

/-- INSERT keeps the canonical form. -/
theorem cacheInsert_wf {c : Cache} (h : Cache.wf c) (p : Pixel) : Cache.wf (cacheInsert c p) := cacheWrite_wf h _ _

/-- R72: the slot inserted into. -/
@[simp] theorem cacheRead_cacheInsert_same (c : Cache) (p : Pixel) : cacheRead (cacheInsert c p) (pixelHash p) = some p :=
  cacheRead_write_same ..

/-- R72: all other slots. -/
theorem cacheRead_cacheInsert_other {c : Cache} {p : Pixel} {a : Slot} (h : pixelHash p ≠ a) :
    cacheRead (cacheInsert c p) a = cacheRead c a := cacheRead_write_other h

/-- R32: INSERT of the pixel already stored. -/
theorem cacheInsert_of_read {c : Cache} {p : Pixel} (hwf : Cache.wf c) (h : cacheRead c (pixelHash p) = some p) :
    cacheInsert c p = c := cacheWrite_of_read hwf h

end Sys2Proof.Machine
end

