-- ==== Sys2Proof/Laws/State.lean ====
section
/-! SUPPORT. Each record update of State, field by field. -/

namespace Sys2Proof.Machine

/-! ## `raise` (R148) -/

@[simp] theorem raise_cache (c : Cause) (s : State) : (raise c s).cache = s.cache := rfl
@[simp] theorem raise_prev (c : Cause) (s : State) : (raise c s).prev = s.prev := rfl
@[simp] theorem raise_runAcc (c : Cause) (s : State) : (raise c s).runAcc = s.runAcc := rfl
@[simp] theorem raise_pos (c : Cause) (s : State) : (raise c s).pos = s.pos := rfl
@[simp] theorem raise_err (c : Cause) (s : State) : (raise c s).err = true := rfl
@[simp] theorem raise_errCode (c : Cause) (s : State) : (raise c s).errCode = causeCode c := rfl
@[simp] theorem raise_tags (c : Cause) (s : State) : (raise c s).tags = s.tags := rfl
@[simp] theorem raise_out (c : Cause) (s : State) : (raise c s).out = s.out := rfl
@[simp] theorem raise_pending (c : Cause) (s : State) : (raise c s).pending = s.pending := rfl
@[simp] theorem raise_sent (c : Cause) (s : State) : (raise c s).sent = s.sent := rfl
@[simp] theorem raise_edges (c : Cause) (s : State) : (raise c s).edges = s.edges := rfl

/-! ## `emitBytes` (R9) -/

@[simp] theorem emitBytes_cache (bs : List Byte) (s : State) : (emitBytes bs s).cache = s.cache := rfl
@[simp] theorem emitBytes_prev (bs : List Byte) (s : State) : (emitBytes bs s).prev = s.prev := rfl
@[simp] theorem emitBytes_runAcc (bs : List Byte) (s : State) : (emitBytes bs s).runAcc = s.runAcc := rfl
@[simp] theorem emitBytes_pos (bs : List Byte) (s : State) : (emitBytes bs s).pos = s.pos := rfl
@[simp] theorem emitBytes_err (bs : List Byte) (s : State) : (emitBytes bs s).err = s.err := rfl
@[simp] theorem emitBytes_errCode (bs : List Byte) (s : State) : (emitBytes bs s).errCode = s.errCode := rfl
@[simp] theorem emitBytes_tags (bs : List Byte) (s : State) : (emitBytes bs s).tags = s.tags := rfl
@[simp] theorem emitBytes_out (bs : List Byte) (s : State) : (emitBytes bs s).out = s.out ++ bs.map .byte := rfl
@[simp] theorem emitBytes_pending (bs : List Byte) (s : State) : (emitBytes bs s).pending = s.pending ++ bs.map .byte := rfl
@[simp] theorem emitBytes_sent (bs : List Byte) (s : State) : (emitBytes bs s).sent = s.sent := rfl
@[simp] theorem emitBytes_edges (bs : List Byte) (s : State) : (emitBytes bs s).edges = s.edges := rfl

/-! ## `emitEos` (R9) -/

@[simp] theorem emitEos_cache (s : State) : (emitEos s).cache = s.cache := rfl
@[simp] theorem emitEos_prev (s : State) : (emitEos s).prev = s.prev := rfl
@[simp] theorem emitEos_runAcc (s : State) : (emitEos s).runAcc = s.runAcc := rfl
@[simp] theorem emitEos_pos (s : State) : (emitEos s).pos = s.pos := rfl
@[simp] theorem emitEos_err (s : State) : (emitEos s).err = s.err := rfl
@[simp] theorem emitEos_errCode (s : State) : (emitEos s).errCode = s.errCode := rfl
@[simp] theorem emitEos_tags (s : State) : (emitEos s).tags = s.tags ++ [.runEnd] := rfl
@[simp] theorem emitEos_out (s : State) : (emitEos s).out = s.out ++ [.eos] := rfl
@[simp] theorem emitEos_pending (s : State) : (emitEos s).pending = s.pending ++ [.eos] := rfl
@[simp] theorem emitEos_sent (s : State) : (emitEos s).sent = s.sent := rfl
@[simp] theorem emitEos_edges (s : State) : (emitEos s).edges = s.edges := rfl

/-! ## `clearRun` (R130) -/

@[simp] theorem clearRun_cache (s : State) : (clearRun s).cache = [] := rfl
@[simp] theorem clearRun_prev (s : State) : (clearRun s).prev = none := rfl
@[simp] theorem clearRun_runAcc (s : State) : (clearRun s).runAcc = 0 := rfl
@[simp] theorem clearRun_pos (s : State) : (clearRun s).pos = 0 := rfl
@[simp] theorem clearRun_err (s : State) : (clearRun s).err = s.err := rfl
@[simp] theorem clearRun_errCode (s : State) : (clearRun s).errCode = s.errCode := rfl
@[simp] theorem clearRun_tags (s : State) : (clearRun s).tags = s.tags := rfl
@[simp] theorem clearRun_out (s : State) : (clearRun s).out = s.out := rfl
@[simp] theorem clearRun_pending (s : State) : (clearRun s).pending = s.pending := rfl
@[simp] theorem clearRun_sent (s : State) : (clearRun s).sent = s.sent := rfl
@[simp] theorem clearRun_edges (s : State) : (clearRun s).edges = s.edges := rfl

/-! ## `applyReset` (R138) -/

@[simp] theorem applyReset_cache (s : State) : (applyReset s).cache = [] := rfl
@[simp] theorem applyReset_prev (s : State) : (applyReset s).prev = none := rfl
@[simp] theorem applyReset_runAcc (s : State) : (applyReset s).runAcc = 0 := rfl
@[simp] theorem applyReset_pos (s : State) : (applyReset s).pos = 0 := rfl
@[simp] theorem applyReset_err (s : State) : (applyReset s).err = false := rfl
@[simp] theorem applyReset_errCode (s : State) : (applyReset s).errCode = 0#2 := rfl
@[simp] theorem applyReset_tags (s : State) : (applyReset s).tags = s.tags := rfl
@[simp] theorem applyReset_out (s : State) : (applyReset s).out = s.out := rfl
@[simp] theorem applyReset_pending (s : State) : (applyReset s).pending = [] := rfl
@[simp] theorem applyReset_sent (s : State) : (applyReset s).sent = s.sent := rfl
@[simp] theorem applyReset_edges (s : State) : (applyReset s).edges = s.edges := rfl

/-! ## `scheduleNext` (log entry 2) -/

@[simp] theorem scheduleNext_cache (e : Edge) (s : State) : (scheduleNext e s).cache = s.cache := rfl
@[simp] theorem scheduleNext_prev (e : Edge) (s : State) : (scheduleNext e s).prev = s.prev := rfl
@[simp] theorem scheduleNext_runAcc (e : Edge) (s : State) : (scheduleNext e s).runAcc = s.runAcc := rfl
@[simp] theorem scheduleNext_pos (e : Edge) (s : State) : (scheduleNext e s).pos = s.pos := rfl
@[simp] theorem scheduleNext_err (e : Edge) (s : State) : (scheduleNext e s).err = s.err := rfl
@[simp] theorem scheduleNext_errCode (e : Edge) (s : State) : (scheduleNext e s).errCode = s.errCode := rfl
@[simp] theorem scheduleNext_tags (e : Edge) (s : State) : (scheduleNext e s).tags = s.tags := rfl
@[simp] theorem scheduleNext_out (e : Edge) (s : State) : (scheduleNext e s).out = s.out := rfl
@[simp] theorem scheduleNext_pending (e : Edge) (s : State) : (scheduleNext e s).pending = s.pending := rfl
@[simp] theorem scheduleNext_sent (e : Edge) (s : State) : (scheduleNext e s).sent = s.sent := rfl
@[simp] theorem scheduleNext_edges (e : Edge) (s : State) : (scheduleNext e s).edges = e :: s.edges := rfl

end Sys2Proof.Machine
end

