-- ==== Sys2Proof/Laws/Emit.lean ====
section
/-! SUPPORT. What each shared operation on State does, once: emission, selection, the closing of a run, the guards. -/

namespace Sys2Proof.Machine

/-- R117: the emission of a well-formed Tag. -/
theorem emitTag_of_wf {t : Tag} (h : t.wf = true) (s : State) :
    emitTag t s =
      { s with
        tags := s.tags ++ [.tag t]
        out := s.out ++ (packBytes t).map .byte
        pending := s.pending ++ (packBytes t).map .byte } := by
  simp [emitTag, pack_of_wf h, emitBytes]

/-- R116, R148: the emission of any other Tag is the fault. -/
theorem emitTag_of_cause {t : Tag} {c : Cause} (h : tagCause t = some c) (s : State) : emitTag t s = raise c s := by
  simp [emitTag, pack_of_cause h]

/-- The emission of a Tag either appends it or raises its cause. -/
theorem emitTag_cases (t : Tag) (s : State) :
    (t.wf = true ∧ emitTag t s =
      { s with
        tags := s.tags ++ [.tag t]
        out := s.out ++ (packBytes t).map .byte
        pending := s.pending ++ (packBytes t).map .byte }) ∨
    ∃ c, tagCause t = some c ∧ emitTag t s = raise c s := by
  cases h : tagCause t with
  | none => exact .inl ⟨tagCause_eq_none_iff.1 h, emitTag_of_wf (tagCause_eq_none_iff.1 h) s⟩
  | some c => exact .inr ⟨c, rfl, emitTag_of_cause h s⟩

/-- R148: nothing follows a fault. -/
theorem unlessFaulted_of_err {k : State → State} {s : State} (h : s.err = true) : unlessFaulted k s = s := by
  simp [unlessFaulted, h]

/-- Without a fault, what follows follows. -/
theorem unlessFaulted_of_live {k : State → State} {s : State} (h : s.err = false) : unlessFaulted k s = k s := by
  simp [unlessFaulted, h]

/-- A live machine takes what is presented. -/
theorem whileLive_of_live {k : State → State} {s : State} (h : s.err = false) : whileLive k s = .next (k s) := by
  simp [whileLive, inReady, h]

/-- R148, F2: a faulted machine is stuck. -/
theorem whileLive_of_err {k : State → State} {s : State} (h : s.err = true) :
    whileLive k s = .fault (.stuckUntilReset s.errCode) := by
  simp [whileLive, inReady, h]

/-- What a next state of a guarded operation says. -/
theorem whileLive_eq_next {k : State → State} {s t : State} (h : whileLive k s = .next t) :
    s.err = false ∧ t = k s := by
  cases he : s.err with
  | false => exact ⟨rfl, by simpa [whileLive_of_live he] using h.symm⟩
  | true => simp [whileLive_of_err he] at h

/-- R101 item a, on the path of a pixel that missed. -/
theorem normalMiss_wf (prev : Option Pixel) (p : Pixel) : (normalMiss prev p).wf = true := by
  cases prev with
  | none => rfl
  | some q =>
    simp only [normalMiss]
    split
    · rename_i h; simpa [Tag.wf, List.all_cons, fitsShort_iff] using h
    · split
      · rename_i h; simpa [Tag.wf, List.all_cons, fitsLong_iff] using h
      · rfl

/-- R97: the Tag of the normal path is well-formed. -/
theorem normal_wf (c : Cache) (prev : Option Pixel) (p : Pixel) : (normal c prev p).wf = true := by
  simp only [normal]
  split
  · rfl
  · exact normalMiss_wf prev p

/-- R97, R99: the whole of the normal path on a live machine. -/
theorem selectPixel_eq (p : Pixel) {s : State} (h : s.err = false) :
    selectPixel p s =
      { s with
        cache := cacheInsert s.cache p
        prev := some p
        pos := s.pos + 1
        tags := s.tags ++ [.tag (normal s.cache s.prev p)]
        out := s.out ++ (packBytes (normal s.cache s.prev p)).map .byte
        pending := s.pending ++ (packBytes (normal s.cache s.prev p)).map .byte } := by
  simp [selectPixel, emitTag_of_wf (normal_wf ..), unlessFaulted, h]

/-- R129: the deferred pixel of a single repeat, on a live machine. -/
theorem selectRepeat_eq {s : State} (h : s.err = false) :
    selectRepeat s =
      { s with
        cache := cacheInsert s.cache (prevPixel s)
        pos := s.pos + 1
        tags := s.tags ++ [.tag (normal s.cache s.prev (prevPixel s))]
        out := s.out ++ (packBytes (normal s.cache s.prev (prevPixel s))).map .byte
        pending := s.pending ++ (packBytes (normal s.cache s.prev (prevPixel s))).map .byte } := by
  simp [selectRepeat, emitTag_of_wf (normal_wf ..), unlessFaulted, h]

/-- R91: a Run of a legal length, on a live machine. -/
theorem selectRun_eq {n : Nat} (hn : (Tag.run n).wf = true) {s : State} (h : s.err = false) :
    selectRun n s =
      { s with
        cache := cacheInsert s.cache (prevPixel s)
        pos := s.pos + n
        tags := s.tags ++ [.tag (.run n)]
        out := s.out ++ (packBytes (.run n)).map .byte
        pending := s.pending ++ (packBytes (.run n)).map .byte } := by
  simp [selectRun, emitTag_of_wf hn, unlessFaulted, h]

/-- R91, R116: a Run of any other length faults. -/
theorem selectRun_of_cause {n : Nat} {c : Cause} (hn : tagCause (.run n) = some c) (s : State) :
    selectRun n s = raise c s := by
  simp [selectRun, emitTag_of_cause hn, unlessFaulted]

/-- `prev` where it is valid. -/
theorem prevPixel_of_some {s : State} {q : Pixel} (h : s.prev = some q) : prevPixel s = q := by simp [prevPixel, h]

/-- R129: the three cases of FLUSH. -/
theorem flush_cases (s : State) :
    (s.runAcc = 0 ∧ flush s = { s with runAcc := 0 }) ∨
    (s.runAcc = 1 ∧ flush s = selectRepeat { s with runAcc := 0 }) ∨
    (2 ≤ s.runAcc ∧ flush s = selectRun s.runAcc { s with runAcc := 0 }) := by
  simp only [flush, qualifies]
  rcases Nat.lt_or_ge s.runAcc 2 with h | h
  · rcases Nat.lt_or_ge s.runAcc 1 with h' | h'
    · left; simp [show s.runAcc = 0 by omega]
    · right; left; simp [show s.runAcc = 1 by omega]
  · right; right; simp [h]

/-- FLUSH with nothing pending. -/
theorem flush_of_zero {s : State} (h : s.runAcc = 0) : flush s = s := by
  cases s; subst h; rfl

/-- An output beat changes `pending` and `sent` alone. -/
theorem deliver_cases (ready : Bool) (s : State) :
    deliver ready s = s ∨
      s.err = false ∧ ∃ x rest, s.pending = x :: rest ∧
        deliver ready s = { s with pending := rest, sent := s.sent ++ [x] } := by
  cases hp : s.pending with
  | nil => left; simp [deliver, outValid, hp]
  | cons x rest =>
    cases he : s.err with
    | true => left; simp [deliver, outValid, he]
    | false =>
      cases ready with
      | false => left; simp [deliver]
      | true => right; exact ⟨rfl, x, rest, rfl, by simp [deliver, outValid, hp, he]⟩

@[simp] theorem deliver_false (s : State) : deliver false s = s := by simp [deliver]
@[simp] theorem deliver_err (ready : Bool) (s : State) : (deliver ready s).err = s.err := by
  simp only [deliver]; split <;> rfl

end Sys2Proof.Machine
end

