-- ==== Sys2Proof/Laws/PerInstr.lean ====
section
/-! SUPPORT. R63, per instruction: the encoded number has its table row's width and fixed field. -/

namespace Sys2Proof

/-- Bytes as one big-endian number. -/
def bigEndian (bs : List Byte) : Nat := bs.foldl (fun n b => n * 256 + b.toNat) 0

/-- The number of a code: a group big-endian, a token's word with `in_eos` as bit 24 (R63). -/
def Code.number : Code → Nat
  | .group bs => bigEndian bs
  | .token w => w.toNat

/-- A row of spec/opcode_table.json: its width in bits, and the lowest bit and the value of its fixed field, which
reaches from that bit to the top. -/
structure TableRow where
  nbits : Nat
  fixedLo : Nat
  fixedValue : Nat

/-- The rows. -/
def tableRow : Instr → TableRow
  | .literal _ => ⟨32, 24, 15⟩
  | .run _ => ⟨8, 6, 1⟩
  | .index _ => ⟨8, 6, 2⟩
  | .diffShort _ _ _ => ⟨8, 6, 3⟩
  | .diffLong _ _ _ => ⟨16, 12, 3⟩
  | .pix _ => ⟨25, 24, 0⟩
  | .eos => ⟨25, 24, 1⟩

end Sys2Proof

namespace Sys2Proof.Laws.TableBits

open Sys2Proof.Machine (byte_lt)

/-- R63: the encoded number fits its row's width, and its fixed field holds the row's value. -/
def Statement (i : Instr) : Prop :=
  (encode i).number < 2 ^ (tableRow i).nbits ∧ (encode i).number / 2 ^ (tableRow i).fixedLo = (tableRow i).fixedValue

/-- Unfolds the statement to the sum of the encoded fields. -/
theorem statement_iff {i : Instr} {n : Nat} (h : (encode i).number = n) :
    Statement i ↔ n < 2 ^ (tableRow i).nbits ∧ n / 2 ^ (tableRow i).fixedLo = (tableRow i).fixedValue := by
  simp [Statement, h]

theorem literal (p : Pixel) : Statement (.literal p) := by
  have hr := byte_lt p.r
  have hg := byte_lt p.g
  have hb := byte_lt p.b
  simp only [Statement, tableRow, encode, encodeGroup, Code.number, bigEndian, List.foldl, BitVec.toNat_ofNat]
  omega

theorem run (n : Nat) : Statement (.run n) := by
  simp only [Statement, tableRow, encode, encodeGroup, Code.number, bigEndian, List.foldl]
  generalize BitVec.ofNat 6 n = x
  revert x; decide

theorem index (s : Slot) : Statement (.index s) := by
  simp only [Statement, tableRow, encode, encodeGroup, Code.number, bigEndian, List.foldl]
  generalize BitVec.ofNat 6 s.val = x
  revert x; decide

theorem diffShort (dR dG dB : Int) : Statement (.diffShort dR dG dB) := by
  simp only [Statement, tableRow, encode, encodeGroup, Code.number, bigEndian, List.foldl]
  generalize shortField dR = x
  generalize shortField dG = y
  generalize shortField dB = z
  revert x y z; decide

theorem diffLong (dR dG dB : Int) : Statement (.diffLong dR dG dB) := by
  simp only [Statement, tableRow, encode, encodeGroup, Code.number, bigEndian, List.foldl]
  generalize longField dR = x
  generalize (longField dG ++ longField dB : Byte) = y
  have hid : (3#4 ++ x : Byte).toNat / 16 = 3 := by revert x; decide
  have hy := byte_lt y
  simp only at *
  omega

theorem pix (p : Pixel) : Statement (.pix p) := by
  change (encodeToken (.pix p)).toNat < 2 ^ 25 ∧ (encodeToken (.pix p)).toNat / 2 ^ 24 = 0
  have h : (encodeToken (.pix p)).getLsbD 24 = false := by
    simp only [encodeToken, BitVec.getLsbD_append]
    simp
  have hlt : (encodeToken (.pix p)).toNat < 2 ^ 25 := (encodeToken (.pix p)).isLt
  rw [BitVec.getLsbD, Nat.testBit_eq_decide_div_mod_eq] at h
  simp at h
  omega

theorem eos : Statement .eos := by
  simp only [Statement, tableRow, encode, encodeToken, Code.number]
  decide

end Sys2Proof.Laws.TableBits
end

