-- ==== Sys2Proof/Laws/Step.lean ====
section
/-! SUPPORT. What one step can do, once. -/

namespace Sys2Proof.Machine

/-- What taking a Tag or a token does to a live machine: each row's effect as a function of State. -/
def effect : Instr → State → State
  | .literal p => emitTag (.literal p)
  | .run n => emitTag (.run n)
  | .index slot => emitTag (.index slot)
  | .diffShort dR dG dB => emitTag (.diffShort dR dG dB)
  | .diffLong dR dG dB => emitTag (.diffLong dR dG dB)
  | .pix p => acceptPix p
  | .eos => acceptEos

/-- Every meaning is its effect behind the one guard. -/
theorem exec_eq (i : Instr) (s : State) : exec i s = whileLive (effect i) s := by cases i <;> rfl

/-- A Tag's row runs the packer. -/
theorem effect_tag (t : Tag) : effect t.toInstr = emitTag t := by cases t <;> rfl

/-- What `exec` answering a next state says. -/
theorem exec_eq_next {i : Instr} {s t : State} (h : exec i s = .next t) : s.err = false ∧ t = effect i s :=
  whileLive_eq_next (exec_eq i s ▸ h)

/-- With no edge scheduled the state is held. -/
theorem step_of_nil {s : State} (h : s.edges = []) : step s = .next s := by simp [step, h]

/-- With an edge scheduled, that edge happens. -/
theorem step_of_cons {s : State} {e : Edge} {rest : List Edge} (h : s.edges = e :: rest) :
    step s = clockEdge e { s with edges := rest } := by simp [step, h]

/-- Everything a step that answers a next state can have done. -/
theorem step_cases {s t : State} (h : step s = .next t) :
    (s.edges = [] ∧ t = s) ∨
    ∃ e rest, s.edges = e :: rest ∧
      ((e.rst = true ∧ t = applyReset { s with edges := rest }) ∨
       (e.rst = false ∧ e.presented = none ∧ t = deliver e.outReady { s with edges := rest }) ∨
       (e.rst = false ∧ s.err = false ∧ ∃ w, e.presented = some w ∧
         ((∃ i, fetch w = some i ∧ t = effect i (deliver e.outReady { s with edges := rest })) ∨
          (fetch w = none ∧ t = raise .invalidKind (deliver e.outReady { s with edges := rest }))))) := by
  cases he : s.edges with
  | nil => left; exact ⟨rfl, by simpa [step, he] using h.symm⟩
  | cons e rest =>
    right
    refine ⟨e, rest, rfl, ?_⟩
    rw [step_of_cons he] at h
    simp only [clockEdge] at h
    split at h
    · rename_i hr; left; exact ⟨hr, by simpa using h.symm⟩
    · rename_i hr
      right
      have hr : e.rst = false := by simpa using hr
      split at h
      · rename_i hp; left; exact ⟨hr, hp, by simpa using h.symm⟩
      · rename_i w hp
        right
        simp only [runPresented] at h
        split at h
        · rename_i i hi
          obtain ⟨hl, ht⟩ := exec_eq_next h
          exact ⟨hr, by simpa using hl, w, hp, .inl ⟨i, hi, ht⟩⟩
        · rename_i hi
          obtain ⟨hl, ht⟩ := whileLive_eq_next h
          exact ⟨hr, by simpa using hl, w, hp, .inr ⟨hi, ht⟩⟩

end Sys2Proof.Machine
end

