-- ==== Sys2Proof/Laws/Runs.lean ====
section
/-! SUPPORT. Several steps, the serialisation of a history, and what the guards of the invariant's words say. -/

namespace Sys2Proof.Machine

/-- No edges. -/
theorem runs_zero (s : State) : runs 0 s = .next s := rfl

/-- One edge, then the others. -/
theorem runs_succ_of_next {s t : State} (k : Nat) (h : step s = .next t) : runs (k + 1) s = runs k t := by
  have h' : core.step s = .next t := h
  simp only [runs, Host.Core.run]
  rw [h']

/-- Some edges, then the others. -/
theorem runs_add {s t : State} {j : Nat} (k : Nat) (h : runs j s = .next t) : runs (j + k) s = runs k t := by
  induction j generalizing s with
  | zero => cases h; rw [Nat.zero_add]
  | succ j ih =>
    rw [Nat.succ_add]
    simp only [runs, Host.Core.run] at h ⊢
    cases hs : core.step s with
    | next u => rw [hs] at h; exact ih h
    | fault r => rw [hs] at h; cases h
    | refused r => rw [hs] at h; cases h

/-- R15: a longer history serialises to more of the same. -/
theorem serialise_append (a b : List TagItem) : serialise (a ++ b) = serialise a ++ serialise b := by
  simp [serialise]

/-- R117: the bytes of more Tags. -/
theorem packAll_append (a b : List Tag) : packAll (a ++ b) = packAll a ++ packAll b := by simp [packAll]

/-- R71, R97: a pixel the cache holds is an Index. -/
theorem normal_of_hit {c : Cache} {prev : Option Pixel} {p : Pixel} (h : cacheRead c (pixelHash p) = some p) :
    normal c prev p = .index (pixelHash p) := by
  simp [normal, cacheLookup, isHit, h]

/-- The schedule is not part of the invariant. -/
theorem CoreInv.withEdges {s : State} (h : CoreInv s) (es : List Edge) : CoreInv { s with edges := es } :=
  ⟨h.1, h.2, h.3, h.4, h.5, h.6, h.7, h.8, h.9, h.10⟩

/-- Neither is how much of the output has been transferred. -/
theorem CoreInv.deliver {s : State} (h : CoreInv s) (ready : Bool) : CoreInv (deliver ready s) := by
  rcases deliver_cases ready s with e | ⟨_, x, rest, _, e⟩
  · rw [e]; exact h
  · rw [e]; exact ⟨h.1, h.2, h.3, h.4, h.5, h.6, h.7, h.8, h.9, h.10⟩

end Sys2Proof.Machine
end

