-- ==== Sys2Proof/Tests/Slice0.lean ====
section
/-! SUPPORT. The model's own tests. Expected values are from the tables of the spec (95_test_vectors.md sections 1 to 3 and
the rules' examples); each witness shows that a statement's hypotheses can be met, at a boundary where there is one. -/

open Sys2Proof Sys2Proof.Machine

namespace Sys2Proof.Tests

/-! ## Helpers -/

/-- The next state of an outcome; the reset state where there is none. -/
def nextOf : Host.Outcome State Fault Refusal → State
  | .next s => s
  | _ => State.reset

/-- Whether an outcome is a next state that satisfies a test. -/
def nextIs (o : Host.Outcome State Fault Refusal) (test : State → Bool) : Bool :=
  match o with
  | .next s => test s
  | _ => false

/-- A state in the middle of a run: `q` is the previous pixel and in the cache, `acc` repeats are pending. -/
def midRun (q : Pixel) (acc : Nat) : State :=
  { State.reset with
    cache := [(pixelHash q, q)]
    prev := some q
    runAcc := acc
    pos := 1
    tags := [.tag (.literal q)]
    out := serialise [.tag (.literal q)]
    pending := serialise [.tag (.literal q)] }

/-- A faulted state. -/
def faulted : State := { State.reset with err := true, errCode := 2#2 }

/-- A state with one edge scheduled. -/
def withEdge (s : State) (e : Edge) : State := { s with edges := [e] }

def p555 : Pixel := ⟨5, 5, 5⟩
def p999 : Pixel := ⟨9, 9, 9⟩
def p100 : Pixel := ⟨100, 100, 100⟩

/-! ## WellFormed refuses: one ill-formed term for each check -/

theorem test_wf_refuses_run_1 : (Instr.run 1).wf = false := by decide
theorem test_wf_refuses_run_63 : (Instr.run 63).wf = false := by decide
theorem test_wf_refuses_short_dR : (Instr.diffShort (-3) 0 0).wf = false := by decide
theorem test_wf_refuses_short_dG : (Instr.diffShort 0 2 0).wf = false := by decide
theorem test_wf_refuses_short_dB : (Instr.diffShort 0 0 2).wf = false := by decide
theorem test_wf_refuses_long_dR : (Instr.diffLong (-9) 0 0).wf = false := by decide
theorem test_wf_refuses_long_dG : (Instr.diffLong 0 8 0).wf = false := by decide
theorem test_wf_refuses_long_dB : (Instr.diffLong 0 0 8).wf = false := by decide
theorem test_wf_accepts_bounds :
    (Instr.run 2).wf ∧ (Instr.run 62).wf ∧ (Instr.diffShort (-2) 1 0).wf ∧ (Instr.diffLong (-8) 7 0).wf := by decide

/-! ## The parameters agree with one another (95_test_vectors.md 1.3) -/

theorem test_config_consistent :
    config.nSlots = 2 ^ config.slotBits ∧ config.runMax < 2 ^ config.slotBits ∧
    config.dsMax - config.dsMin + 1 = 2 ^ config.dsBits ∧ config.dlMax - config.dlMin + 1 = 2 ^ config.dlBits ∧
    config.chBits * config.nCh = 24 := by decide

/-! ## Decoding, words written out from R51 to R55, R62 and R22 -/

theorem test_decode_literal :
    decode (.group [0b00001111, 0b00000001, 0b00000010, 0b00000011]) = .ok (.literal ⟨1, 2, 3⟩) := by decide
theorem test_decode_run : decode (.group [0b01111110]) = .ok (.run 62) := by decide
theorem test_decode_index : decode (.group [0b10011110]) = .ok (.index 30) := by decide
theorem test_decode_diffShort : decode (.group [0b11001110]) = .ok (.diffShort (-2) 1 0) := by decide
theorem test_decode_diffLong : decode (.group [0b00111011, 0b00111111]) = .ok (.diffLong 3 (-5) 7) := by decide
theorem test_decode_pix : decode (.token 0b0000101000000101100000110#25) = .ok (.pix ⟨0x14, 0x0B, 0x06⟩) := by decide
theorem test_decode_eos : decode (.token 0b1000000000000000000000111#25) = .ok .eos := by decide
theorem test_decode_refuses_reserved : decode (.group [0x2F]) = .error (.reservedFirstByte 0x2F) := by decide
theorem test_decode_refuses_truncated : decode (.group [0x0F, 1, 2]) = .error (.truncatedGroup 0x0F) := by decide
theorem test_decode_refuses_trailing : decode (.group [0x42, 7]) = .error (.trailingBytes [7]) := by decide
theorem test_reader_refuses_run_63 : readGroup [0x7F] = .error (.reservedRunCount 63) := by decide
theorem test_bus_literal : decodeBus 0b000000000010000001000000011#27 = some (.literal ⟨1, 2, 3⟩) := by decide
theorem test_bus_run : decodeBus 0b001000000000000000000111110#27 = some (.run 62) := by decide
theorem test_bus_index : decodeBus 0b010000000000000000000011110#27 = some (.index 30) := by decide
theorem test_bus_diffShort : decodeBus 0b011000000000000111000010000#27 = some (.diffShort (-2) 1 0) := by decide
theorem test_bus_diffLong : decodeBus 0b100000000000000001110110111#27 = some (.diffLong 3 (-5) 7) := by decide
theorem test_bus_kind_5 : decodeBus 0b101000000000000000000000000#27 = none := by decide

/-! ## The cache and NORMAL (95_test_vectors.md 2.1, 2.2, 2.4) -/

theorem test_hash_255 : pixelHash ⟨255, 255, 255⟩ = 61 := by decide
theorem test_lookup_collision :
    cacheLookup (cacheInsert (cacheInsert [] ⟨1, 0, 0⟩) ⟨0, 1, 0⟩) ⟨1, 0, 0⟩ = none := by decide
theorem test_normal_short_edge :
    normal [(44, p100)] (some p100) ⟨98, 101, 100⟩ = .diffShort (-2) 1 0 := by decide
theorem test_normal_long_edge :
    normal [(44, p100)] (some p100) ⟨92, 92, 92⟩ = .diffLong (-8) (-8) (-8) := by decide
theorem test_normal_literal_edge :
    normal [(44, p100)] (some p100) ⟨108, 100, 100⟩ = .literal ⟨108, 100, 100⟩ := by decide
theorem test_normal_no_wrap :
    normal [] (some ⟨255, 255, 255⟩) ⟨0, 0, 0⟩ = .literal ⟨0, 0, 0⟩ := by decide
theorem test_runlen_cap : runLen p555 (List.replicate 63 p555) 0 = 62 := by decide

/-! ## Each row once (R111 to R115, R129, R130; 95_test_vectors.md 2.5, 2.7) -/

theorem test_exec_literal :
    nextIs (exec (.literal ⟨1, 2, 3⟩) State.reset) (·.out == [.byte 0x0F, .byte 1, .byte 2, .byte 3]) := by decide
theorem test_exec_run : nextIs (exec (.run 7) State.reset) (·.out == [.byte 0x47]) := by decide
theorem test_exec_run_63_faults :
    nextIs (exec (.run 63) State.reset) (fun t => t.err && t.errCode == 2#2 && t.out == []) := by decide
theorem test_exec_index : nextIs (exec (.index 20) State.reset) (·.out == [.byte 0x94]) := by decide
theorem test_exec_diffShort : nextIs (exec (.diffShort (-2) 1 0) State.reset) (·.out == [.byte 0xCE]) := by decide
theorem test_exec_diffShort_faults :
    nextIs (exec (.diffShort 2 0 0) State.reset) (fun t => t.err && t.errCode == 1#2 && t.out == []) := by decide
theorem test_exec_diffLong :
    nextIs (exec (.diffLong (-8) 7 0) State.reset) (·.out == [.byte 0x30, .byte 0xF8]) := by decide
theorem test_exec_pix_after_single_repeat :
    nextIs (exec (.pix p999) (midRun p555 1))
      (fun t => t.tags.drop 1 == [.tag (.index 15), .tag (.diffLong 4 4 4)] &&
        t.out.drop 4 == [.byte 0x8F, .byte 0x3C, .byte 0xCC] && t.pos == 3 && t.runAcc == 0) := by decide
theorem test_exec_pix_cap :
    nextIs (exec (.pix p555) (midRun p555 61))
      (fun t => t.out.drop 4 == [.byte 0x7E] && t.runAcc == 0 && t.prev == some p555 && t.pos == 63) := by decide
theorem test_exec_eos :
    nextIs (exec .eos (midRun p555 2))
      (fun t => t.out.drop 4 == [.byte 0x42, .eos] && t.cache == [] && t.prev == none && t.pos == 0) := by decide
theorem test_step_kind_6_faults :
    nextIs (step (withEdge State.reset { idleEdge with presented := some (.tagWord 0x6000000#27) }))
      (fun t => t.err && t.errCode == 3#2) := by decide
theorem test_table_words_run_first :
    nextIs (step (State.reset.withFetchWord 32 0x0F010203)) (·.tags == [.tag (.literal ⟨1, 2, 3⟩)]) ∧
    nextIs (step (State.reset.withFetchWord 16 0x3B3F)) (·.tags == [.tag (.diffLong 3 (-5) 7)]) ∧
    nextIs (step (State.reset.withFetchWord 32 0x0140000)) (·.prev == some ⟨20, 0, 0⟩) ∧
    nextIs (step (State.reset.withFetchWord 32 0x1000000)) (·.out == [.eos]) := by decide

/-! ## Witnesses: encodings and the packer -/

theorem witness_EveryWellFormedInstructionDecodesBack : (Instr.diffLong (-8) 7 0).wf = true := by decide
theorem witness_StrictReadingIsTheEncodingReversed : readGroup [0x7E, 9] = .ok (.run 62, [9]) := by decide
theorem witness_PackedStreamParsesToItsTags :
    ∀ t ∈ [Tag.run 2, .index 63, .diffLong (-8) 7 0], t.wf = true := by decide
theorem witness_PackMapsTagsToTheirGroups :
    (Tag.run 62).wf = true ∧ (Tag.run 63).wf = false ∧ pack (.literal p555) = .ok [0x0F, 5, 5, 5] ∧
    pack (.run 2) = .ok [0x42] ∧ pack (.index 63) = .ok [0xBF] ∧ pack (.diffShort 1 1 1) = .ok [0xFF] ∧
    pack (.diffLong 7 7 7) = .ok [0x3F, 0xFF] ∧ pack (.run 2) = pack (.run 2) := by decide
theorem witness_PackBytesOfEachVariant :
    ((2 : Nat) ≤ 2 ∧ (62 : Nat) ≤ 62) ∧ ((1 : Nat) < 2 ∨ 62 < 1) ∧ (63 < 2 ∨ (62 : Nat) < 63) ∧
    ¬((-2 ≤ (2 : Int) ∧ (2 : Int) ≤ 1)) ∧ ((-8 : Int) ≤ -8 ∧ (7 : Int) ≤ 7) ∧ ¬((-8 : Int) ≤ -9) := by decide
theorem witness_ReservedFirstBytesAreNeverSent : pack (.index 0) = .ok [0x80] := by decide
theorem witness_EveryTokenWordIsAToken :
    2 ^ 24 ≤ (0x1000000#25).toNat ∧ (0xFFFFFF#25).toNat < 2 ^ 24 := by decide
theorem witness_TagBusCarriesEveryWellFormedTag : (Tag.diffShort (-2) 1 0).wf = true := by decide

/-! ## Witnesses: the step -/

theorem witness_StepRunsThePresentedInstruction :
    (withEdge State.reset (edgeFor (.run 2))).edges = [edgeFor (.run 2)] ∧ (edgeFor (.run 2)).rst = false ∧
    (edgeFor (.run 2)).presented = some (presentation (.run 2)) ∧ fetch (presentation (.run 2)) = some (.run 2) := by decide
theorem witness_FetchWordRunsTheTableInstruction :
    decodeTableWord 8 0x40 = some (.run 0) ∧ decodeTableWord 32 0x1FFFFFF = some .eos := by decide
theorem witness_IdleHoldsTheState :
    State.reset.edges = [] ∧ idleEdge.rst = false ∧ idleEdge.presented = none ∧ idleEdge.outReady = false ∧
    State.reset.pending = [] := by decide
theorem witness_OutputBeatTransfersOneItem :
    (withEdge (midRun p555 0) { idleEdge with outReady := true }).edges = [{ idleEdge with outReady := true }] ∧
    idleEdge.rst = false ∧ idleEdge.presented = none ∧ (midRun p555 0).err = false ∧
    (midRun p555 0).pending = .byte 0x0F :: [.byte 5, .byte 5, .byte 5] := by decide
theorem witness_ResetEdgeGivesTheResetState :
    (withEdge faulted { edgeFor .eos with rst := true }).edges = [{ edgeFor .eos with rst := true }] := by decide

/-! ## Witnesses: cache and selection -/

theorem witness_CacheLaws :
    (⟨1, 0, 0⟩ : Pixel) ≠ ⟨0, 1, 0⟩ ∧ pixelHash ⟨1, 0, 0⟩ = pixelHash ⟨0, 1, 0⟩ ∧
    pixelHash ⟨0, 0, 0⟩ ≠ pixelHash ⟨63, 0, 0⟩ ∧ cacheLookup [(63, ⟨63, 0, 0⟩)] ⟨63, 0, 0⟩ = some 63 ∧
    Cache.wf [(0, ⟨64, 0, 0⟩), (63, ⟨63, 0, 0⟩)] ∧ cacheRead [(15, p555)] 15 = some p555 ∧ pixelHash p555 = 15 := by decide
theorem witness_CacheOperationsAndTheirFrames :
    (14 : Slot) ≠ pixelHash p555 ∧ Cache.wf [(15, p555)] ∧ cacheRead [(15, p555)] (pixelHash ⟨15, 0, 0⟩) ≠ some ⟨15, 0, 0⟩ := by
  decide
theorem witness_CacheIsDeterminedByItsSlots :
    Cache.wf [(15, p555)] ∧ ∀ a, cacheRead [(15, p555)] a = cacheRead (cacheInsert [] p555) a := by decide
theorem witness_NormalPathPriority :
    cacheRead [(44, p100)] (pixelHash p100) = some p100 ∧ cacheRead [] (pixelHash p100) ≠ some p100 ∧
    cacheRead [(44, p100)] (pixelHash ⟨98, 101, 100⟩) ≠ some ⟨98, 101, 100⟩ := by decide
theorem witness_DiffTagsRecoverThePixel :
    normal [] (some p100) ⟨98, 101, 100⟩ = .diffShort (-2) 1 0 ∧
    normal [] (some p100) ⟨92, 107, 100⟩ = .diffLong (-8) 7 0 := by decide

/-- The helper's states meet the invariant, up to the last count that does. -/
theorem midRun_inv (q : Pixel) {acc : Nat} (h : acc ≤ 61) : CoreInv (midRun q acc) where
  cache_wf := by simp [midRun, Cache.wf]
  cache_hash := by
    intro a p hp
    simp only [midRun, cacheRead] at hp
    split at hp
    · rename_i ha; cases hp; exact ha
    · cases hp
  acc_below_cap := by simp [midRun]; omega
  acc_prev := by simp [midRun]
  prev_pos := by simp [midRun]
  prev_cached := by simp [midRun, cacheRead]
  start_empty := by simp [midRun]
  tags_wf := by simp [midRun, Tag.wf]
  out_tags := rfl
  err_code := by simp [midRun, State.reset]

theorem witness_NormalPathConsequences :
    CoreInv (midRun p555 61) ∧ (midRun p555 61).prev = some p555 ∧
    normal (midRun p555 61).cache (midRun p555 61).prev p999 = .diffLong 4 4 4 ∧
    normal (midRun p555 61).cache (midRun p555 61).prev ⟨6, 5, 5⟩ = .diffShort 1 0 0 ∧
    normal (midRun p555 61).cache (midRun p555 61).prev p555 = .index 15 :=
  ⟨midRun_inv p555 (by decide), by decide⟩

/-! ## Witnesses: the rows -/

theorem witness_packer_rows : State.reset.err = false ∧ (2 : Nat) ≤ 2 ∧ ¬((2 : Nat) ≤ 63 ∧ (63 : Nat) ≤ 62) ∧
    ((-2 : Int) ≤ -2 ∧ (1 : Int) ≤ 1) ∧ ¬((-2 : Int) ≤ -3) ∧ ((-8 : Int) ≤ -8 ∧ (7 : Int) ≤ 7) ∧ ¬((8 : Int) ≤ 7) := by decide
theorem witness_PixRepeatIsCounted :
    (midRun p555 60).err = false ∧ (midRun p555 60).prev = some p555 ∧ (midRun p555 60).runAcc < 61 := by decide
theorem witness_PixRepeatAtTheCapEmitsRun62 :
    (midRun p555 61).err = false ∧ (midRun p555 61).prev = some p555 ∧ (midRun p555 61).runAcc = 61 := by decide
theorem witness_PixOnTheNormalPath :
    (midRun p555 0).err = false ∧ (midRun p555 0).prev ≠ some p999 ∧ (midRun p555 0).runAcc = 0 ∧
    State.reset.prev ≠ some p999 ∧ State.reset.runAcc = 0 := by decide
theorem witness_PixClosesAPendingRun :
    (midRun p555 61).err = false ∧ (midRun p555 61).prev = some p555 ∧ p555 ≠ p999 ∧ 2 ≤ (midRun p555 61).runAcc ∧
    (midRun p555 61).runAcc ≤ 62 := by decide
theorem witness_PixAfterASingleRepeat :
    (midRun p555 1).err = false ∧ (midRun p555 1).prev = some p555 ∧ p555 ≠ p999 ∧ (midRun p555 1).runAcc = 1 ∧
    cacheRead (midRun p555 1).cache (pixelHash p555) = some p555 := by decide
theorem witness_EosWithNothingPending : (midRun p555 0).err = false ∧ (midRun p555 0).runAcc = 0 := by decide
theorem witness_EosClosesAPendingRun :
    (midRun p555 2).err = false ∧ 2 ≤ (midRun p555 2).runAcc ∧ (midRun p555 2).runAcc ≤ 62 := by decide
theorem witness_EosClosesASingleRepeat :
    (midRun p555 1).err = false ∧ (midRun p555 1).runAcc = 1 ∧ (midRun p555 1).prev = some p555 ∧
    cacheRead (midRun p555 1).cache (pixelHash p555) = some p555 := by decide
theorem reset_runStart : RunStart State.reset := ⟨rfl, rfl, rfl, rfl, rfl⟩
theorem witness_FirstPixelOfARunIsLiteral : RunStart State.reset := reset_runStart
theorem witness_TokenBursts :
    CoreInv (midRun p555 61) ∧ (midRun p555 61).err = false ∧ (midRun p555 61).prev = some p555 ∧
    (midRun p555 61).prev ≠ some p999 := ⟨midRun_inv p555 (by decide), by decide⟩
theorem witness_PixWritesOnlyItsOwnSlot :
    CoreInv (midRun p555 61) ∧ nextIs (exec (.pix p555) (midRun p555 61)) (fun _ => true) ∧
    (14 : Slot) ≠ pixelHash p555 ∧ (midRun p555 61).prev = some p555 := ⟨midRun_inv p555 (by decide), by decide⟩
theorem witness_CollidingPixelsEvictEachOther :
    CoreInv (midRun p999 61) ∧ (⟨1, 0, 0⟩ : Pixel) ≠ ⟨0, 1, 0⟩ ∧ pixelHash ⟨1, 0, 0⟩ = pixelHash ⟨0, 1, 0⟩ ∧
    nextIs (exec (.pix ⟨1, 0, 0⟩) (midRun p999 61)) (fun s1 => nextIs (exec (.pix ⟨0, 1, 0⟩) s1)
      (fun s2 => nextIs (exec (.pix ⟨1, 0, 0⟩) s2) (fun _ => true))) := ⟨midRun_inv p999 (by decide), by decide⟩

/-! ## Witnesses: the fault -/

theorem witness_IllFormedTagTakesTheFault :
    (withEdge State.reset { idleEdge with presented := some (.tagWord 0x5000000#27) }).edges =
      [{ idleEdge with presented := some (.tagWord 0x5000000#27) }] ∧ idleEdge.rst = false ∧ idleEdge.outReady = false ∧
    State.reset.err = false ∧ decodeBus 0x5000000#27 = none ∧ decodeBus 0x100003F#27 = some (.run 63) ∧
    ¬(2 ≤ 63 ∧ 63 ≤ 62) ∧ decodeBus 0x3000200#27 = some (.diffShort 2 0 0) ∧ ¬((2 : Int) ≤ 1) := by decide
theorem witness_FaultedMachineIsStuckUntilReset :
    faulted.err = true ∧ (withEdge faulted idleEdge).edges = [idleEdge] ∧
    nextIs (step (withEdge faulted idleEdge)) (fun _ => true) := by decide
theorem witness_ComposedHardwareNeverFaults :
    CoreInv (withEdge (midRun p555 61) (tokenEdge (.pix p555) true)) ∧ (midRun p555 61).err = false ∧
    ∀ e ∈ (withEdge (midRun p555 61) (tokenEdge (.pix p555) true)).edges, e.composed = true :=
  ⟨(midRun_inv p555 (by decide)).withEdges _, by decide⟩

/-! ## Witnesses: invariants and runs -/

theorem witness_EveryStepKeepsTheInvariant :
    CoreInv (withEdge (midRun p555 61) (tokenEdge (.pix p555) true)) ∧
    nextIs (step (withEdge (midRun p555 61) (tokenEdge (.pix p555) true))) (·.pos == 63) :=
  ⟨(midRun_inv p555 (by decide)).withEdges _, by decide⟩
theorem witness_EmittedTagsRepresentTheRun :
    RepresentsRun (withEdge (midRun p555 61) (tokenEdge (.pix p555) true)) :=
  ⟨[], [.literal p555], decodedPixel p555 decodedStart, rfl, rfl, by decide, rfl, rfl⟩
theorem witness_TransferredItemsAreAPrefixOfTheOutput :
    (midRun p555 0).out = (midRun p555 0).sent ++ (midRun p555 0).pending ∧
    nextIs (step (withEdge (midRun p555 0) (tokenEdge .eos true))) (·.sent == [.byte 0x0F]) := by decide
/-- Two pixels and Eos, a later edge left over. -/
def twoPixels : State := { State.reset with edges := runEdges [p555, p555] ++ [idleEdge] }
theorem witness_StreamingFormComputesTheBatchForm :
    RunStart twoPixels ∧ twoPixels.edges = runEdges [p555, p555] ++ [idleEdge] := ⟨reset_runStart, rfl⟩
theorem witness_NothingSurvivesARun :
    RunStart { State.reset with edges := runEdges [p555] ++ runEdges [] ++ [] } := reset_runStart
theorem witness_OutputLagsByAtMost61Pixels :
    RunStart { State.reset with edges := [p555, p555].map (fun p => tokenEdge (.pix p) false) ++ [] } := reset_runStart
theorem witness_ARunCompletesWhenTheConsumerIsReady :
    RunStart { State.reset with
      edges := runEdges [p555] ++
        List.replicate ((compressedBytes [p555]).length + 1) { rst := false, presented := none, outReady := true } ++ [] } ∧
    State.reset.pending = [] := ⟨reset_runStart, rfl⟩
theorem witness_HistoriesOnlyGrow :
    nextIs (step (withEdge (midRun p555 2) (tokenEdge .eos true)))
      (fun t => t.tags.length == 3 && t.out.length == 6 && t.sent.length == 1) := by decide
theorem witness_MonitorShowsTheTagHistory :
    CoreInv (midRun p555 0) ∧ monitorWords (midRun p555 0).tags = [0x0050505#27] := ⟨midRun_inv p555 (by decide), by decide⟩
theorem witness_TimingOfBeatsDoesNotChangeTheOutput :
    CoreInv (withEdge (midRun p555 61) idleEdge) ∧ (withEdge (midRun p555 61) idleEdge).err = false ∧
    (withEdge (midRun p555 61) idleEdge).edges = [idleEdge] ++ [] ∧
    ∀ e ∈ [idleEdge], e.rst = false ∧ e.composed = true := ⟨(midRun_inv p555 (by decide)).withEdges _, by decide⟩
theorem witness_RunLengthCountsRepeatsUpToTheCap : 0 < runLen p555 [p555] 0 := by decide
theorem witness_CompressedTagsAreWellFormedAndOrdered :
    (compress (List.replicate 65 p555))[1]? = some (.run 62) ∧ (compress (List.replicate 65 p555))[2]? = some (.run 2) := by
  decide
theorem witness_CompressedSizeBounds : 1 ≤ [p555].length := by decide

end Sys2Proof.Tests
end

section
/-! SUPPORT. R18, R16, R15: every step keeps the invariant. The shared operations are taken one by one; under the
invariant FLUSH is the emission of one closing Tag that leaves the cache as it is. -/

namespace Sys2Proof.Machine

/-! ## Operations that touch no register of the selector -/

/-- R147: no cause has the code 0. -/
theorem causeCode_ne_zero (c : Cause) : causeCode c ≠ 0#2 := by cases c <;> decide

/-- R16, R148: the fault sets `err` and a code that is not 0. -/
theorem CoreInv.afterRaise {s : State} (h : CoreInv s) (c : Cause) : CoreInv (raise c s) :=
  { h with err_code := by simp [causeCode_ne_zero] }

/-- R15, R117: a history with one Tag more serialises to its bytes more. -/
theorem serialise_append_tag (items : List TagItem) (t : Tag) :
    serialise (items ++ [.tag t]) = serialise items ++ (packBytes t).map .byte := by
  simp [serialise]

/-- R18 item 4, R116: an emission appends a well-formed Tag with its bytes, or faults. -/
theorem CoreInv.afterEmitTag {s : State} (h : CoreInv s) (t : Tag) : CoreInv (emitTag t s) := by
  rcases emitTag_cases t s with ⟨hwf, e⟩ | ⟨c, -, e⟩
  · rw [e]
    refine { h with tags_wf := fun u hu => ?_, out_tags := ?_ }
    · rcases List.mem_append.1 hu with hu | hu
      · exact h.tags_wf u hu
      · obtain rfl : u = t := by simpa using hu
        exact hwf
    · simp [h.out_tags, serialise_append_tag]
  · rw [e]; exact h.afterRaise c

/-- R130: the mark and OutEos go out together. -/
theorem CoreInv.afterEmitEos {s : State} (h : CoreInv s) : CoreInv (emitEos s) :=
  { h with
    tags_wf := fun u hu => h.tags_wf u (by simpa using hu)
    out_tags := by simp [h.out_tags, serialise] }

/-- R18, R19: the registers at the start of a run meet the invariant, whatever the histories. -/
theorem coreInv_of_start {s : State} (hcache : s.cache = []) (hprev : s.prev = none) (hacc : s.runAcc = 0)
    (hpos : s.pos = 0) (htags : ∀ t, TagItem.tag t ∈ s.tags → t.wf = true) (hout : s.out = serialise s.tags)
    (herr : s.errCode = 0#2 ↔ s.err = false) : CoreInv s where
  cache_wf := hcache ▸ cacheClear_wf
  cache_hash a q hq := by rw [hcache] at hq; cases hq
  acc_below_cap := by simp [hacc]
  acc_prev h0 := by simp [hacc] at h0
  prev_pos := by simp [hprev, hpos]
  prev_cached q hq := by rw [hprev] at hq; cases hq
  start_empty _ := hcache
  tags_wf := htags
  out_tags := hout
  err_code := herr

/-- R130: the end of a run. -/
theorem CoreInv.afterClearRun {s : State} (h : CoreInv s) : CoreInv (clearRun s) :=
  coreInv_of_start rfl rfl rfl rfl h.tags_wf h.out_tags h.err_code

/-- R138: a reset edge clears the run and the fault. -/
theorem CoreInv.afterApplyReset {s : State} (h : CoreInv s) : CoreInv (applyReset s) :=
  coreInv_of_start rfl rfl rfl rfl h.tags_wf h.out_tags (by simp)

/-! ## The normal path -/

/-- R18 item 1, R72: INSERT keeps every pixel in the slot of its hash. -/
theorem cacheInsert_hash {c : Cache} {p : Pixel} (h : ∀ a q, cacheRead c a = some q → pixelHash q = a) {a : Slot}
    {q : Pixel} (hq : cacheRead (cacheInsert c p) a = some q) : pixelHash q = a := by
  by_cases ha : pixelHash p = a
  · subst ha
    rw [cacheRead_cacheInsert_same] at hq
    cases hq; rfl
  · exact h a q (cacheRead_cacheInsert_other ha ▸ hq)

/-- R97, R99: the pixel is inserted into its slot and becomes `prev`. -/
theorem CoreInv.afterSelectPixel {s : State} (h : CoreInv s) (he : s.err = false) (p : Pixel) :
    CoreInv (selectPixel p s) := by
  have hemit := h.afterEmitTag (normal s.cache s.prev p)
  rw [emitTag_of_wf (normal_wf ..)] at hemit
  rw [selectPixel_eq p he]
  exact { hemit with
    cache_wf := cacheInsert_wf h.cache_wf p
    cache_hash := fun _ _ => cacheInsert_hash h.cache_hash
    acc_prev := by simp
    prev_pos := by simp
    prev_cached := by simp
    start_empty := by simp }

/-! ## FLUSH under the invariant -/

/-- R83, R97: the Tag that closes a pending run of `n` repeats of `q`, where the cache holds `q`. -/
def closingTag (n : Nat) (q : Pixel) : Tag := if n = 1 then .index (pixelHash q) else .run n

/-- R83, R129: the pending run of `n` repeats of `q` is closed. The INSERT of `q`, which the cache holds, is redundant
and has no place here. -/
def closeRun (n : Nat) (q : Pixel) (s : State) : State :=
  { emitTag (closingTag n q) s with runAcc := 0, pos := s.pos + n }

/-- R101 item a: the closing Tag of a run of 1 to 62 repeats is well-formed. -/
theorem closingTag_wf {n : Nat} (q : Pixel) (h0 : 0 < n) (hn : n ≤ 62) : (closingTag n q).wf = true := by
  unfold closingTag
  split
  · rfl
  · simp [Tag.wf]; omega

/-- R117: closing a run of 1 to 62 repeats, field by field. -/
theorem closeRun_eq {n : Nat} (q : Pixel) (s : State) (h0 : 0 < n) (hn : n ≤ 62) :
    closeRun n q s =
      { s with
        runAcc := 0
        pos := s.pos + n
        tags := s.tags ++ [.tag (closingTag n q)]
        out := s.out ++ (packBytes (closingTag n q)).map .byte
        pending := s.pending ++ (packBytes (closingTag n q)).map .byte } := by
  simp [closeRun, emitTag_of_wf (closingTag_wf q h0 hn)]

/-- R83, R129: FLUSH of 1 to 62 repeats of a `prev` that the cache holds. The count is a parameter because the 62nd
repeat closes a run that the invariant, which speaks of the time between tokens, does not allow. -/
theorem CoreInv.flush_eq_closeRun {s : State} (h : CoreInv s) (he : s.err = false) {n : Nat} (h0 : 0 < n) (hn : n ≤ 62)
    {q : Pixel} (hq : s.prev = some q) : flush { s with runAcc := n } = closeRun n q s := by
  have hread := h.prev_cached q hq
  have hins : cacheInsert s.cache q = s.cache := cacheInsert_of_read h.cache_wf hread
  rw [closeRun_eq q s h0 hn]
  rcases flush_cases { s with runAcc := n } with ⟨hz, -⟩ | ⟨h1, e⟩ | ⟨h2, e⟩
  · exact absurd hz h0.ne'
  · obtain rfl : n = 1 := h1
    rw [e, selectRepeat_eq (by exact he), prevPixel_of_some (by exact hq)]
    simp [closingTag, hins, normal_of_hit hread]
  · have hne : n ≠ 1 := fun h1 => by simp [h1] at h2
    have hwf : (Tag.run n).wf = true := by simpa [closingTag, hne] using closingTag_wf q h0 hn
    rw [e, selectRun_eq hwf (by exact he), prevPixel_of_some (by exact hq)]
    simp [closingTag, hins, hne]

/-- R129: FLUSH between tokens: nothing pending, or the pending repeats of `prev` are closed. -/
theorem CoreInv.flush_cases {s : State} (h : CoreInv s) (he : s.err = false) :
    (s.runAcc = 0 ∧ flush s = s) ∨
      ∃ q, s.prev = some q ∧ 0 < s.runAcc ∧ s.runAcc ≤ 62 ∧ flush s = closeRun s.runAcc q s := by
  rcases Nat.eq_zero_or_pos s.runAcc with h0 | h0
  · exact .inl ⟨h0, flush_of_zero h0⟩
  · obtain ⟨q, hq⟩ := Option.ne_none_iff_exists'.1 (h.acc_prev h0)
    exact .inr ⟨q, hq, h0, h.acc_below_cap.le, h.flush_eq_closeRun he h0 h.acc_below_cap.le hq⟩

/-- R18 item 2: closing a run moves `pos` on and leaves the cache and `prev`. -/
theorem CoreInv.afterCloseRun {s : State} (h : CoreInv s) {n : Nat} {q : Pixel} (hq : s.prev = some q) (h0 : 0 < n)
    (hn : n ≤ 62) : CoreInv (closeRun n q s) := by
  have hemit := h.afterEmitTag (closingTag n q)
  rw [emitTag_of_wf (closingTag_wf q h0 hn)] at hemit
  rw [closeRun_eq q s h0 hn]
  exact { hemit with
    acc_below_cap := (by decide : 0 < 62)
    acc_prev := by simp
    prev_pos := by simp [hq]; omega }

/-- FLUSH keeps the invariant. -/
theorem CoreInv.afterFlush {s : State} (h : CoreInv s) (he : s.err = false) : CoreInv (flush s) := by
  rcases h.flush_cases he with ⟨-, e⟩ | ⟨q, hq, h0, hn, e⟩
  · rw [e]; exact h
  · rw [e]; exact h.afterCloseRun hq h0 hn

/-- R146: FLUSH raises no fault. -/
theorem CoreInv.flush_err {s : State} (h : CoreInv s) (he : s.err = false) : (flush s).err = false := by
  rcases h.flush_cases he with ⟨-, e⟩ | ⟨q, -, h0, hn, e⟩
  · rw [e]; exact he
  · rw [e, closeRun_eq q s h0 hn]; exact he

/-! ## The tokens -/

/-- R129: what the token `Pix(p)` does under the invariant: a repeat is counted, the 62nd repeat closes the run, and any
other pixel takes the normal path after FLUSH. -/
theorem CoreInv.acceptPix_cases {s : State} (h : CoreInv s) (he : s.err = false) (p : Pixel) :
    (s.prev = some p ∧ s.runAcc < 61 ∧ acceptPix p s = { s with runAcc := s.runAcc + 1 }) ∨
    (s.prev = some p ∧ s.runAcc = 61 ∧ acceptPix p s = closeRun 62 p s) ∨
    (s.prev ≠ some p ∧ acceptPix p s = selectPixel p (flush s)) := by
  by_cases hp : s.prev = some p
  · have hrep : acceptPix p s = acceptRepeat s := by simp [acceptPix, isRepeat, hp]
    have hcap : s.runAcc < 62 := h.acc_below_cap
    by_cases hacc : s.runAcc = 61
    · refine .inr (.inl ⟨hp, hacc, ?_⟩)
      rw [hrep, ← h.flush_eq_closeRun he (by decide) le_rfl hp]
      simp [acceptRepeat, atCap, hacc]
    · refine .inl ⟨hp, by omega, ?_⟩
      simp [hrep, acceptRepeat, atCap, hacc]
  · refine .inr (.inr ⟨hp, ?_⟩)
    simp [acceptPix, isRepeat, hp, unlessFaulted_of_live (h.flush_err he)]

/-- R130: what the token `Eos` does under the invariant. -/
theorem CoreInv.acceptEos_eq {s : State} (h : CoreInv s) (he : s.err = false) :
    acceptEos s = clearRun (emitEos (flush s)) :=
  unlessFaulted_of_live (h.flush_err he)

/-- The token `Pix(p)` keeps the invariant. -/
theorem CoreInv.afterAcceptPix {s : State} (h : CoreInv s) (he : s.err = false) (p : Pixel) :
    CoreInv (acceptPix p s) := by
  rcases h.acceptPix_cases he p with ⟨hp, hacc, e⟩ | ⟨hp, -, e⟩ | ⟨-, e⟩
  · rw [e]
    exact { h with
      acc_below_cap := by simp; omega
      acc_prev := by simp [hp] }
  · rw [e]; exact h.afterCloseRun hp (by decide) le_rfl
  · rw [e]; exact (h.afterFlush he).afterSelectPixel (h.flush_err he) p

/-- The token `Eos` keeps the invariant. -/
theorem CoreInv.afterAcceptEos {s : State} (h : CoreInv s) (he : s.err = false) : CoreInv (acceptEos s) := by
  rw [h.acceptEos_eq he]
  exact (h.afterFlush he).afterEmitEos.afterClearRun

/-- Every row of the opcode table keeps the invariant. -/
theorem CoreInv.afterEffect {s : State} (h : CoreInv s) (he : s.err = false) (i : Instr) : CoreInv (effect i s) := by
  cases i with
  | literal p => exact h.afterEmitTag (.literal p)
  | run n => exact h.afterEmitTag (.run n)
  | index a => exact h.afterEmitTag (.index a)
  | diffShort dR dG dB => exact h.afterEmitTag (.diffShort dR dG dB)
  | diffLong dR dG dB => exact h.afterEmitTag (.diffLong dR dG dB)
  | pix p => exact h.afterAcceptPix he p
  | eos => exact h.afterAcceptEos he

/-- Settles O44: the invariant is kept by each kind of edge that `step_cases` lists. -/
theorem everyStepKeepsTheInvariant : Obligations.EveryStepKeepsTheInvariant := by
  intro s t h hstep
  rcases step_cases hstep with ⟨-, rfl⟩ | ⟨e, rest, -, hedge⟩
  · exact h
  · have hw : CoreInv { s with edges := rest } := h.withEdges rest
    rcases hedge with ⟨-, rfl⟩ | ⟨-, -, rfl⟩ | ⟨-, he, w, -, ⟨i, -, rfl⟩ | ⟨-, rfl⟩⟩
    · exact hw.afterApplyReset
    · exact hw.deliver e.outReady
    · exact (hw.deliver e.outReady).afterEffect (by simpa using he) i
    · exact (hw.deliver e.outReady).afterRaise _

end Sys2Proof.Machine
end

section
/-! SUPPORT. R12, R18 item 1, R170: the Tags of the run decode to the machine's own cache, `prev` and `pos`. The Tag of
the normal path decodes to the pixel it was chosen for, the Tag that closes a run to the run's pixels. -/

namespace Sys2Proof.Machine

/-! ## The reference decoder on the selector's Tags -/

/-- R93, D1: a difference added back gives the channel, with no overflow. -/
theorem addChannel_channelDelta (c q : Byte) : addChannel q (channelDelta c q) = some c := by
  have hv : (q.toNat : Int) + channelDelta c q = (c.toNat : Int) := by simp [channelDelta]
  have hlt : (c.toNat : Int) < 2 ^ 8 := by have := byte_lt c; omega
  simp only [addChannel, hv, config_chBits]
  rw [if_pos ⟨Int.natCast_nonneg _, hlt⟩, BitVec.ofInt_natCast, BitVec.ofNat_toNat, BitVec.setWidth_eq]

/-- R101 item f: the three differences added to the previous pixel give the pixel. -/
theorem addDeltas_delta (p q : Pixel) : addDeltas q (delta p q).dR (delta p q).dG (delta p q).dB = some p := by
  simp [addDeltas, delta, addChannel_channelDelta]

/-- R93 to R96: the Tag of a pixel that missed decodes to the pixel, whatever the cache. -/
theorem decodeTag_normalMiss (d : Decoded) (p : Pixel) :
    decodeTag (normalMiss d.prev p) d = some (decodedPixel p d) := by
  cases hq : d.prev with
  | none => rfl
  | some q =>
    simp only [normalMiss]
    split
    · simp [decodeTag, hq, addDeltas_delta]
    · split
      · simp [decodeTag, hq, addDeltas_delta]
      · rfl

/-- R97: a decoder with the selector's cache and `prev` decodes the Tag of the normal path to the pixel. -/
theorem decodeTag_normal (d : Decoded) (p : Pixel) :
    decodeTag (normal d.cache d.prev p) d = some (decodedPixel p d) := by
  cases hl : cacheLookup d.cache p with
  | none => simp [normal, hl, decodeTag_normalMiss]
  | some a =>
    obtain ⟨rfl, hread⟩ := cacheLookup_eq_some_iff.1 hl
    simp [normal, hl, decodeTag, hread]

/-- R83, R91: a decoder whose `prev` is `q` and whose cache holds `q` decodes the Tag that closes a run of `q` to the
run's pixels and keeps its cache and `prev`. -/
theorem decodeTag_closingTag {d : Decoded} {q : Pixel} (hwf : Cache.wf d.cache) (hprev : d.prev = some q)
    (hread : cacheRead d.cache (pixelHash q) = some q) (n : Nat) :
    decodeTag (closingTag n q) d = some { d with pixels := d.pixels ++ List.replicate n q } := by
  have hins : cacheInsert d.cache q = d.cache := cacheInsert_of_read hwf hread
  unfold closingTag
  split
  · rename_i h1
    simp [decodeTag, hread, decodedPixel, hins, hprev, h1]
  · simp [decodeTag, hprev, hins]

/-- The decoder goes through a sequence of Tags and then through what follows. -/
theorem decodeTags_append (ts us : List Tag) (d : Decoded) :
    decodeTags (ts ++ us) d = (decodeTags ts d).bind (decodeTags us) := by
  induction ts generalizing d with
  | nil => rfl
  | cons t ts ih => simp [decodeTags, Option.bind_assoc, ih]

/-! ## The relation -/

/-- R19: where a run begins nothing has been represented, whatever other runs left in `tags`. -/
theorem representsRun_of_start {s : State} (hcache : s.cache = []) (hprev : s.prev = none) (hpos : s.pos = 0) :
    RepresentsRun s :=
  ⟨s.tags, [], decodedStart, by simp, rfl, hcache.symm, hprev.symm, hpos.symm⟩

/-- One Tag more, which a decoder in step with the machine decodes to the machine's next cache, `prev` and `pos`. -/
theorem RepresentsRun.append {s t : State} {u : Tag} (h : RepresentsRun s) (htags : t.tags = s.tags ++ [.tag u])
    (hdec : ∀ d : Decoded, d.cache = s.cache → d.prev = s.prev → d.pixels.length = s.pos →
      ∃ d', decodeTag u d = some d' ∧ d'.cache = t.cache ∧ d'.prev = t.prev ∧ d'.pixels.length = t.pos) :
    RepresentsRun t := by
  obtain ⟨older, run, d, htag, hrun, hcache, hprev, hpos⟩ := h
  obtain ⟨d', hd', hcache', hprev', hpos'⟩ := hdec d hcache hprev hpos
  refine ⟨older, run ++ [u], d', ?_, ?_, hcache', hprev', hpos'⟩
  · simp [htags, htag]
  · simp [decodeTags_append, hrun, decodeTags, hd']

/-- R97, R99: the normal path. -/
theorem RepresentsRun.afterSelectPixel {s : State} (h : RepresentsRun s) (he : s.err = false) (p : Pixel) :
    RepresentsRun (selectPixel p s) := by
  rw [selectPixel_eq p he]
  refine h.append rfl fun d hcache hprev hpos => ⟨decodedPixel p d, ?_, ?_, rfl, ?_⟩
  · rw [← hcache, ← hprev]; exact decodeTag_normal d p
  · simp [decodedPixel, hcache]
  · simp [decodedPixel, hpos]

/-- R83: the closing of a pending run. -/
theorem RepresentsRun.afterCloseRun {s : State} (h : RepresentsRun s) (hinv : CoreInv s) {n : Nat} {q : Pixel}
    (hq : s.prev = some q) (h0 : 0 < n) (hn : n ≤ 62) : RepresentsRun (closeRun n q s) := by
  rw [closeRun_eq q s h0 hn]
  refine h.append rfl fun d hcache hprev hpos =>
    ⟨{ d with pixels := d.pixels ++ List.replicate n q }, ?_, hcache, hprev, ?_⟩
  · exact decodeTag_closingTag (hcache ▸ hinv.cache_wf) (hprev.trans hq) (hcache ▸ hinv.prev_cached q hq) n
  · simp [hpos]

/-- R129: FLUSH. -/
theorem RepresentsRun.afterFlush {s : State} (h : RepresentsRun s) (hinv : CoreInv s) (he : s.err = false) :
    RepresentsRun (flush s) := by
  rcases hinv.flush_cases he with ⟨-, e⟩ | ⟨q, hq, h0, hn, e⟩
  · rw [e]; exact h
  · rw [e]; exact h.afterCloseRun hinv hq h0 hn

/-- R129: the token `Pix(p)`. A repeat that is only counted is not yet represented. -/
theorem RepresentsRun.afterAcceptPix {s : State} (h : RepresentsRun s) (hinv : CoreInv s) (he : s.err = false)
    (p : Pixel) : RepresentsRun (acceptPix p s) := by
  rcases hinv.acceptPix_cases he p with ⟨-, -, e⟩ | ⟨hp, -, e⟩ | ⟨-, e⟩
  · rw [e]; exact h
  · rw [e]; exact h.afterCloseRun hinv hp (by decide) le_rfl
  · rw [e]; exact (h.afterFlush hinv he).afterSelectPixel (hinv.flush_err he) p

/-- R8: the row of a token keeps the relation; after `Eos` a run begins. -/
theorem RepresentsRun.afterToken {s : State} (h : RepresentsRun s) (hinv : CoreInv s) (he : s.err = false)
    (tok : Token) : RepresentsRun (effect tok.toInstr s) := by
  cases tok with
  | pix p => exact h.afterAcceptPix hinv he p
  | eos =>
    change RepresentsRun (acceptEos s)
    rw [hinv.acceptEos_eq he]
    exact representsRun_of_start rfl rfl rfl

/-- An output beat does not touch what the relation speaks of. -/
theorem RepresentsRun.deliver {s : State} (h : RepresentsRun s) (ready : Bool) : RepresentsRun (deliver ready s) := by
  rcases deliver_cases ready s with e | ⟨-, x, rest, -, e⟩ <;> rw [e] <;> exact h

/-- R146: at an edge of the composed hardware what is presented is a token word. -/
theorem composed_presented {e : Edge} {w : Presented} (hc : e.composed = true) (hp : e.presented = some w) :
    ∃ v, w = .token v := by
  cases w with
  | token v => exact ⟨v, rfl⟩
  | tagWord v => simp [Edge.composed, hp] at hc

/-- Settles O45: of the edges that `step_cases` lists, a reset begins a run, an output beat changes nothing here, and in
the composed hardware what is taken is a token. -/
theorem emittedTagsRepresentTheRun : Obligations.EmittedTagsRepresentTheRun := by
  intro s t hinv h hcomp hstep
  rcases step_cases hstep with ⟨-, rfl⟩ | ⟨e, rest, hedges, hedge⟩
  · exact h
  · have hw : RepresentsRun { s with edges := rest } := h
    rcases hedge with ⟨-, rfl⟩ | ⟨-, -, rfl⟩ | ⟨-, he, w, hp, hfetch⟩
    · exact representsRun_of_start rfl rfl rfl
    · exact hw.deliver e.outReady
    · obtain ⟨v, rfl⟩ := composed_presented (hcomp e (by simp [hedges])) hp
      rcases hfetch with ⟨i, hi, rfl⟩ | ⟨hnone, -⟩
      · obtain rfl : (decodeToken v).toInstr = i := Option.some.inj hi
        exact (hw.deliver e.outReady).afterToken ((hinv.withEdges rest).deliver e.outReady) (by simpa using he) _
      · simp [fetch] at hnone

/-- Settles O43: the reset state is one in which a run begins, with empty histories. -/
theorem resetStateMeetsTheInvariants : Obligations.ResetStateMeetsTheInvariants :=
  ⟨coreInv_of_start rfl rfl rfl rfl (fun _ ht => by cases ht) rfl (by simp [State.reset]),
    representsRun_of_start rfl rfl rfl, ⟨rfl, rfl, rfl, rfl, rfl⟩⟩

end Sys2Proof.Machine
end

section
/-! SUPPORT. R11, R30: a cache in canonical form is the list of what its slots read. -/

namespace Sys2Proof.Machine

/-- In canonical form a pair is listed exactly when its slot reads its pixel. -/
theorem mem_iff_cacheRead {c : Cache} (h : Cache.wf c) {a : Slot} {p : Pixel} :
    (a, p) ∈ c ↔ cacheRead c a = some p := by
  induction c with
  | nil => simp [cacheRead]
  | cons x rest ih =>
    obtain ⟨k, q⟩ := x
    obtain ⟨hk, hrest⟩ := List.pairwise_cons.1 h
    by_cases hka : k = a
    · subst hka
      have hnot : (k, p) ∉ rest := fun hmem => lt_irrefl k (hk _ hmem)
      simp [cacheRead, hnot, eq_comm]
    · simp [cacheRead, hka, Ne.symm hka, ih hrest]

/-- Settles O19: two lists in strictly rising order with the same members are equal. -/
theorem cacheIsDeterminedByItsSlots : Obligations.CacheIsDeterminedByItsSlots := by
  intro c d hc hd hread
  have : Std.Irrefl fun a b : Slot × Pixel => a.1 < b.1 := ⟨fun a => lt_irrefl a.1⟩
  have : Std.Antisymm fun a b : Slot × Pixel => a.1 < b.1 := ⟨fun _ _ hab hba => absurd hba hab.asymm⟩
  refine hc.eq_of_mem_iff hd fun (a, p) => ?_
  rw [mem_iff_cacheRead hc, mem_iff_cacheRead hd, hread a]

end Sys2Proof.Machine
end

section
/-! SUPPORT. R15: every step only appends to the histories, in every state, faulted and unreachable ones included. -/

namespace Sys2Proof.Machine

/-- R15: nothing emitted or transferred in `s` is changed or withdrawn in `t`. -/
def Grows (s t : State) : Prop := s.tags <+: t.tags ∧ s.out <+: t.out ∧ s.sent <+: t.sent

namespace Grows

/-- What leaves the histories: the relation compares these alone, so it also holds of `s` with other registers. -/
theorem refl (s : State) : Grows s s := ⟨List.prefix_rfl, List.prefix_rfl, List.prefix_rfl⟩

/-- One after another. -/
theorem trans {s t u : State} (h : Grows s t) (h' : Grows t u) : Grows s u := by
  obtain ⟨htags, hout, hsent⟩ := h
  obtain ⟨htags', hout', hsent'⟩ := h'
  exact ⟨htags.trans htags', hout.trans hout', hsent.trans hsent'⟩

/-- R148: what follows an emission, or nothing where that faulted. -/
theorem unlessFaulted {s t : State} {k : State → State} (h : Grows s t) (hk : Grows t (k t)) :
    Grows s (unlessFaulted k t) := by
  cases he : t.err with
  | true => rw [unlessFaulted_of_err he]; exact h
  | false => rw [unlessFaulted_of_live he]; exact h.trans hk

end Grows

/-- R117, R148: an emission appends, or faults and leaves the histories. -/
theorem emitTag_grows (t : Tag) (s : State) : Grows s (emitTag t s) := by
  rcases emitTag_cases t s with ⟨-, e⟩ | ⟨c, -, e⟩
  · rw [e]; exact ⟨List.prefix_append .., List.prefix_append .., List.prefix_rfl⟩
  · rw [e]; exact .refl s

/-- R9: `emit_eos`. -/
theorem emitEos_grows (s : State) : Grows s (emitEos s) :=
  ⟨List.prefix_append .., List.prefix_append .., List.prefix_rfl⟩

/-- R91: the Run; the update after it is of the selector's registers alone. -/
theorem selectRun_grows (n : Nat) (s : State) : Grows s (selectRun n s) := (emitTag_grows _ s).unlessFaulted (.refl _)

/-- R129: the deferred pixel of a single repeat. -/
theorem selectRepeat_grows (s : State) : Grows s (selectRepeat s) := (emitTag_grows _ s).unlessFaulted (.refl _)

/-- R97, R99: the normal path. -/
theorem selectPixel_grows (p : Pixel) (s : State) : Grows s (selectPixel p s) :=
  (emitTag_grows _ s).unlessFaulted (.refl _)

/-- R129: FLUSH in each of its cases. -/
theorem flush_grows (s : State) : Grows s (flush s) := by
  rcases flush_cases s with ⟨-, e⟩ | ⟨-, e⟩ | ⟨-, e⟩
  · rw [e]; exact .refl s
  · rw [e]; exact selectRepeat_grows { s with runAcc := 0 }
  · rw [e]; exact selectRun_grows _ { s with runAcc := 0 }

/-- R129: a repeat is counted, and at the cap the run is closed. -/
theorem acceptRepeat_grows (s : State) : Grows s (acceptRepeat s) := by
  simp only [acceptRepeat]
  split
  · exact flush_grows { s with runAcc := s.runAcc + 1 }
  · exact .refl s

/-- R129: the token `Pix(p)`. -/
theorem acceptPix_grows (p : Pixel) (s : State) : Grows s (acceptPix p s) := by
  unfold acceptPix
  split
  · exact acceptRepeat_grows s
  · exact (flush_grows s).unlessFaulted (selectPixel_grows p _)

/-- R130: the token `Eos`. -/
theorem acceptEos_grows (s : State) : Grows s (acceptEos s) := (flush_grows s).unlessFaulted (emitEos_grows _)

/-- Every row of the opcode table. -/
theorem effect_grows (i : Instr) (s : State) : Grows s (effect i s) := by
  cases i with
  | literal p => exact emitTag_grows (.literal p) s
  | run n => exact emitTag_grows (.run n) s
  | index a => exact emitTag_grows (.index a) s
  | diffShort dR dG dB => exact emitTag_grows (.diffShort dR dG dB) s
  | diffLong dR dG dB => exact emitTag_grows (.diffLong dR dG dB) s
  | pix p => exact acceptPix_grows p s
  | eos => exact acceptEos_grows s

/-- R136: an output beat appends the item transferred. -/
theorem deliver_grows (ready : Bool) (s : State) : Grows s (deliver ready s) := by
  rcases deliver_cases ready s with e | ⟨-, x, rest, -, e⟩
  · rw [e]; exact .refl s
  · rw [e]; exact ⟨List.prefix_rfl, List.prefix_rfl, List.prefix_append ..⟩

/-- R15: one step, by the kinds of edge that `step_cases` lists. -/
theorem step_grows {s t : State} (h : step s = .next t) : Grows s t := by
  rcases step_cases h with ⟨-, rfl⟩ | ⟨e, rest, -, hedge⟩
  · exact .refl _
  · have hbeat : Grows s (deliver e.outReady { s with edges := rest }) := deliver_grows _ { s with edges := rest }
    rcases hedge with ⟨-, rfl⟩ | ⟨-, -, rfl⟩ | ⟨-, -, w, -, ⟨i, -, rfl⟩ | ⟨-, rfl⟩⟩
    · exact .refl _
    · exact hbeat
    · exact hbeat.trans (effect_grows i _)
    · exact hbeat

/-- Settles O46: `step_grows`, of the three histories. -/
theorem historiesOnlyGrow : Obligations.HistoriesOnlyGrow := fun _ _ h => step_grows h

end Sys2Proof.Machine
end

section
/-! SUPPORT. R22: the tag bus. What a word of each kind decodes to, the fields of the words that Tags are written as,
and which words are ill-formed. -/

namespace Sys2Proof.Machine

/-! ## The kinds -/

/-- R22: bits 26:24 as a number. -/
theorem busKind_toNat (w : TagWord) : (busKind w).toNat = w.toNat / 2 ^ 24 := by
  have hw : w.toNat < 2 ^ 27 := w.isLt
  simp only [busKind, BitVec.extractLsb'_toNat, Nat.shiftRight_eq_div_pow, pixelBits_eq]
  omega

/-- R22: the five kinds, and those above 4. -/
theorem busKind_cases (w : TagWord) :
    busKind w = 0#3 ∨ busKind w = 1#3 ∨ busKind w = 2#3 ∨ busKind w = 3#3 ∨ busKind w = 4#3 ∨
      4 < (busKind w).toNat := by
  generalize busKind w = k
  revert k; decide

section
variable {w : TagWord}

/-- R22: kind 0. -/
theorem decodeBus_of_kind_literal (h : busKind w = 0#3) : decodeBus w = some (.literal (pixelOfWord w)) := by
  simp [decodeBus, h]

/-- R22: kind 1. -/
theorem decodeBus_of_kind_run (h : busKind w = 1#3) :
    decodeBus w = some (.run (w.extractLsb' 0 config.slotBits).toNat) := by
  simp [decodeBus, h]

/-- R22: kind 2. -/
theorem decodeBus_of_kind_index (h : busKind w = 2#3) :
    decodeBus w = some (.index (w.extractLsb' 0 config.slotBits).toFin) := by
  simp [decodeBus, h]

/-- R22: kind 3. -/
theorem decodeBus_of_kind_diffShort (h : busKind w = 3#3) :
    decodeBus w = some (.diffShort (busDelta w 2) (busDelta w 1) (busDelta w 0)) := by
  simp [decodeBus, h]

/-- R22: kind 4. -/
theorem decodeBus_of_kind_diffLong (h : busKind w = 4#3) :
    decodeBus w = some (.diffLong (busDelta w 2) (busDelta w 1) (busDelta w 0)) := by
  simp [decodeBus, h]

/-- R22, R147: kinds 5, 6 and 7 are no Tag. -/
theorem decodeBus_of_kind_unknown (h : 4 < (busKind w).toNat) : decodeBus w = none := by
  have hne : ∀ k : BitVec 3, k.toNat ≤ 4 → busKind w ≠ k := fun k hk hw => by subst hw; omega
  simp [decodeBus, hne]

end

/-! ## The words of Tags -/

/-- R22: the kind of a word written as a kind beside a payload. -/
theorem busKind_append (k : BitVec 3) (v : BitVec pixelBits) : busKind (k ++ v) = k :=
  BitVec.extractLsb'_append_eq_left

/-- Three fields of one width below a field of any, each read back from its place. -/
theorem extractLsb'_append_three {n m : Nat} (u : BitVec n) (x y z : BitVec m) :
    (u ++ x ++ y ++ z).extractLsb' (3 * m) n = u ∧ (u ++ x ++ y ++ z).extractLsb' (2 * m) m = x ∧
      (u ++ x ++ y ++ z).extractLsb' (1 * m) m = y ∧ (u ++ x ++ y ++ z).extractLsb' (0 * m) m = z := by
  have h3 : 3 * m - m - m = m := by omega
  have h2 : 2 * m - m = m := by omega
  refine ⟨?_, ?_, ?_, ?_⟩
  · rw [BitVec.extractLsb'_append_eq_of_le (by omega), BitVec.extractLsb'_append_eq_of_le (by omega), h3,
      BitVec.extractLsb'_append_eq_left]
  · rw [BitVec.extractLsb'_append_eq_of_le (by omega), h2, BitVec.extractLsb'_append_eq_of_le le_rfl, Nat.sub_self,
      BitVec.extractLsb'_append_eq_right]
  · rw [Nat.one_mul, BitVec.extractLsb'_append_eq_of_le le_rfl, Nat.sub_self, BitVec.extractLsb'_append_eq_right]
  · rw [Nat.zero_mul, BitVec.extractLsb'_append_eq_right]

/-- R22: the kind of a Literal's word. -/
theorem busKind_encodeBus_literal (p : Pixel) : busKind (encodeBus (.literal p)) = 0#3 :=
  (extractLsb'_append_three 0#3 p.r p.g p.b).1

/-- R22: what is below the kind is the payload. -/
theorem extractLsb'_payload (k : BitVec 3) (v : BitVec pixelBits) {start len : Nat} (h : start + len ≤ pixelBits) :
    BitVec.extractLsb' start len (k ++ v : TagWord) = v.extractLsb' start len :=
  BitVec.extractLsb'_append_eq_of_add_le h

/-- R22: the number of an Index or a Run is in the low 6 bits. -/
theorem extractLsb'_busNumber (k : BitVec 3) (n : Nat) :
    BitVec.extractLsb' 0 config.slotBits (k ++ busNumber n : TagWord) = BitVec.ofNat config.slotBits n :=
  (extractLsb'_payload k _ (by decide)).trans BitVec.extractLsb'_append_eq_right

/-- R22: a delta in [-8,7] read back from its signed field. -/
theorem toInt_ofInt_dlBits {d : Int} (h : -8 ≤ d ∧ d ≤ 7) : (BitVec.ofInt config.dlBits d).toInt = d :=
  BitVec.toInt_ofInt_eq_self (by decide) h.1 (by simp; omega)

/-- R22: the three delta fields of a Diff's word. -/
theorem busDelta_busDeltas (k : BitVec 3) {dR dG dB : Int} (hR : -8 ≤ dR ∧ dR ≤ 7) (hG : -8 ≤ dG ∧ dG ≤ 7)
    (hB : -8 ≤ dB ∧ dB ≤ 7) :
    busDelta (k ++ busDeltas dR dG dB) 2 = dR ∧ busDelta (k ++ busDeltas dR dG dB) 1 = dG ∧
      busDelta (k ++ busDeltas dR dG dB) 0 = dB := by
  obtain ⟨-, h2, h1, h0⟩ := extractLsb'_append_three 0#(pixelBits - config.nCh * config.dlBits)
    (BitVec.ofInt config.dlBits dR) (BitVec.ofInt config.dlBits dG) (BitVec.ofInt config.dlBits dB)
  have hfield : ∀ i < 3, busDelta (k ++ busDeltas dR dG dB) i =
      ((busDeltas dR dG dB).extractLsb' (i * config.dlBits) config.dlBits).toInt := fun i hi =>
    congrArg BitVec.toInt (extractLsb'_payload k _ (by simp; omega))
  refine ⟨?_, ?_, ?_⟩
  · exact (hfield 2 (by decide)).trans ((congrArg BitVec.toInt h2).trans (toInt_ofInt_dlBits hR))
  · exact (hfield 1 (by decide)).trans ((congrArg BitVec.toInt h1).trans (toInt_ofInt_dlBits hG))
  · exact (hfield 0 (by decide)).trans ((congrArg BitVec.toInt h0).trans (toInt_ofInt_dlBits hB))

/-- Settles O8: the word's kind selects the variant, and each field reads back. -/
theorem tagBusCarriesEveryWellFormedTag : Obligations.TagBusCarriesEveryWellFormedTag := by
  intro t hwf
  cases t with
  | literal p =>
    rw [decodeBus_of_kind_literal (busKind_encodeBus_literal p)]
    exact congrArg (some ∘ Tag.literal) (pixelOfWord_append 0#3 p)
  | run n =>
    obtain ⟨-, hmax⟩ : 2 ≤ n ∧ n ≤ 62 := by simpa [Tag.wf] using hwf
    have hn : n < 2 ^ 6 := by omega
    have hnum : (encodeBus (.run n)).extractLsb' 0 config.slotBits = BitVec.ofNat config.slotBits n :=
      extractLsb'_busNumber 1#3 n
    rw [decodeBus_of_kind_run (w := encodeBus (.run n)) (busKind_append 1#3 _), hnum, BitVec.toNat_ofNat,
      Nat.mod_eq_of_lt hn]
  | index a =>
    have hnum : (encodeBus (.index a)).extractLsb' 0 config.slotBits = BitVec.ofNat config.slotBits a.val :=
      extractLsb'_busNumber 2#3 a.val
    rw [decodeBus_of_kind_index (w := encodeBus (.index a)) (busKind_append 2#3 _), hnum, BitVec.toFin_ofNat,
      Fin.ofNat_val_eq_self]
  | diffShort dR dG dB =>
    obtain ⟨hR, hG, hB⟩ : (-2 ≤ dR ∧ dR ≤ 1) ∧ (-2 ≤ dG ∧ dG ≤ 1) ∧ (-2 ≤ dB ∧ dB ≤ 1) := by simpa [Tag.wf] using hwf
    obtain ⟨h2, h1, h0⟩ := busDelta_busDeltas 3#3 (dR := dR) (dG := dG) (dB := dB) (by omega) (by omega) (by omega)
    rw [decodeBus_of_kind_diffShort (w := encodeBus (.diffShort dR dG dB)) (busKind_append 3#3 _)]
    simp only [encodeBus, h2, h1, h0]
  | diffLong dR dG dB =>
    obtain ⟨hR, hG, hB⟩ : (-8 ≤ dR ∧ dR ≤ 7) ∧ (-8 ≤ dG ∧ dG ≤ 7) ∧ (-8 ≤ dB ∧ dB ≤ 7) := by simpa [Tag.wf] using hwf
    obtain ⟨h2, h1, h0⟩ := busDelta_busDeltas 4#3 hR hG hB
    rw [decodeBus_of_kind_diffLong (w := encodeBus (.diffLong dR dG dB)) (busKind_append 4#3 _)]
    simp only [encodeBus, h2, h1, h0]

/-! ## The ill-formed words -/

/-- R22: a signed field of 4 bits is outside [-2,1] exactly when its bits are 2 to 13. -/
theorem toInt_short_iff (x : BitVec config.dlBits) : (-2 ≤ x.toInt ∧ x.toInt ≤ 1) ↔ ¬(2 ≤ x.toNat ∧ x.toNat ≤ 13) := by
  revert x; decide

/-- R22: a signed field of 4 bits is in [-8,7]. -/
theorem toInt_long (x : BitVec config.dlBits) : -8 ≤ x.toInt ∧ x.toInt ≤ 7 := by
  revert x; decide

/-- R22: the bits of the `k`-th delta field. -/
theorem busField_toNat (w : TagWord) (k : Nat) :
    (w.extractLsb' (k * config.dlBits) config.dlBits).toNat = w.toNat / 16 ^ k % 16 := by
  rw [BitVec.extractLsb'_toNat, Nat.shiftRight_eq_div_pow, config_dlBits, mul_comm, pow_mul]
  norm_num

/-- R22: a DiffShort's word is ill-formed when one of its fields is. -/
theorem busDiffShort_wf_false_iff (w : TagWord) :
    (Tag.diffShort (busDelta w 2) (busDelta w 1) (busDelta w 0)).wf = false ↔
      ∃ k, k < 3 ∧ 2 ≤ w.toNat / 16 ^ k % 16 ∧ w.toNat / 16 ^ k % 16 ≤ 13 := by
  have hfield : ∀ k, (-2 ≤ busDelta w k ∧ busDelta w k ≤ 1) ↔
      ¬(2 ≤ w.toNat / 16 ^ k % 16 ∧ w.toNat / 16 ^ k % 16 ≤ 13) := fun k => by
    rw [← busField_toNat]; exact toInt_short_iff _
  have hwf : (Tag.diffShort (busDelta w 2) (busDelta w 1) (busDelta w 0)).wf = true ↔
      (-2 ≤ busDelta w 2 ∧ busDelta w 2 ≤ 1) ∧ (-2 ≤ busDelta w 1 ∧ busDelta w 1 ≤ 1) ∧
        (-2 ≤ busDelta w 0 ∧ busDelta w 0 ≤ 1) := by simp [Tag.wf]
  rw [← Bool.not_eq_true, hwf, hfield, hfield, hfield]
  simp only [Nat.exists_lt_succ_right, Nat.not_lt_zero, false_and, exists_false, false_or]
  tauto

/-- R22: a DiffLong's word is never ill-formed. -/
theorem busDiffLong_wf (w : TagWord) : (Tag.diffLong (busDelta w 2) (busDelta w 1) (busDelta w 0)).wf = true := by
  have hlong : ∀ k, -8 ≤ busDelta w k ∧ busDelta w k ≤ 7 := fun _ => toInt_long _
  simp [Tag.wf, hlong]

/-- R22: a Run whose length is a number of 6 bits is ill-formed when that is 0, 1 or 63. -/
theorem run_mod_wf_false_iff (n : Nat) : (Tag.run (n % 64)).wf = false ↔ n % 64 = 0 ∨ n % 64 = 1 ∨ n % 64 = 63 := by
  have hwf : (Tag.run (n % 64)).wf = true ↔ 2 ≤ n % 64 ∧ n % 64 ≤ 62 := by simp [Tag.wf]
  rw [← Bool.not_eq_true, hwf]
  omega

/-- Settles O9: by the kind of the word. -/
theorem illFormedTagBusWords : Obligations.IllFormedTagBusWords := by
  intro w
  rw [← busKind_toNat]
  rcases busKind_cases w with h | h | h | h | h | h
  · simp [decodeBus_of_kind_literal h, h, Tag.wf]
  · simp [decodeBus_of_kind_run h, h, run_mod_wf_false_iff]
  · simp [decodeBus_of_kind_index h, h, Tag.wf]
  · simp [decodeBus_of_kind_diffShort h, h, busDiffShort_wf_false_iff]
  · simp [decodeBus_of_kind_diffLong h, h, busDiffLong_wf]
  · simp [decodeBus_of_kind_unknown h, h]

end Sys2Proof.Machine
end

section
/-! SUPPORT. R50 to R60: tag groups. The first bytes of the variants, the Tags whose fields a group holds, the group of
each and its reading, the strict reader, and streams of groups. -/

namespace Sys2Proof.Machine

/-! ## The first byte (R57, R58)

A first byte selects a variant exactly when it is the variant's identifier above some payload. -/

/-- R57: the identifier of a Literal is the whole byte. -/
theorem variantOf_eq_literal_iff {b : Byte} : variantOf b = some .literal ↔ b = config.idLiteral := by
  revert b; decide

/-- R57: where a variant's first bytes are laid out from a payload, and the payload is read back from each. -/
theorem variantOf_eq_iff {α : Type} {v : Variant} (payload : Byte → α) (layOut : α → Byte)
    (hread : ∀ b, variantOf b = some v → b = layOut (payload b)) (hwrite : ∀ x, variantOf (layOut x) = some v)
    {b : Byte} : variantOf b = some v ↔ ∃ x, b = layOut x := by
  refine ⟨fun h => ⟨payload b, hread b h⟩, ?_⟩
  rintro ⟨x, rfl⟩
  exact hwrite x

/-- R57: 0x30 to 0x3F. -/
theorem variantOf_eq_diffLong_iff {b : Byte} :
    variantOf b = some .diffLong ↔ ∃ x : BitVec config.dlBits, b = config.idDiffLong ++ x :=
  variantOf_eq_iff (fun b => b.extractLsb' 0 config.dlBits) (config.idDiffLong ++ ·) (by decide) (by decide)

/-- R57: 0x40 to 0x7F. -/
theorem variantOf_eq_run_iff {b : Byte} :
    variantOf b = some .run ↔ ∃ x : BitVec config.slotBits, b = config.idRun ++ x :=
  variantOf_eq_iff (fun b => b.extractLsb' 0 config.slotBits) (config.idRun ++ ·) (by decide) (by decide)

/-- R57: 0x80 to 0xBF. -/
theorem variantOf_eq_index_iff {b : Byte} :
    variantOf b = some .index ↔ ∃ x : BitVec config.slotBits, b = config.idIndex ++ x :=
  variantOf_eq_iff (fun b => b.extractLsb' 0 config.slotBits) (config.idIndex ++ ·) (by decide) (by decide)

/-- R57: 0xC0 to 0xFF. -/
theorem variantOf_eq_diffShort_iff {b : Byte} :
    variantOf b = some .diffShort ↔ ∃ x y z : BitVec config.dsBits, b = config.idDiffShort ++ x ++ y ++ z := by
  refine ⟨fun h => ⟨b.extractLsb' (2 * config.dsBits) config.dsBits, b.extractLsb' config.dsBits config.dsBits,
    b.extractLsb' 0 config.dsBits, ?_⟩, ?_⟩
  · revert b; decide
  · rintro ⟨x, y, z, rfl⟩; revert x y z; decide

/-- R58: the 47 first bytes of no variant. -/
theorem variantOf_eq_none_iff {b : Byte} :
    variantOf b = none ↔ b.toNat ≤ 0x0E ∨ (0x10 ≤ b.toNat ∧ b.toNat ≤ 0x2F) := by
  revert b; decide

/-! ## The biased fields (R56) -/

/-- R56: the bias undone is the field. -/
theorem biasField_unbias {w : Nat} (lo : Int) (x : BitVec w) : biasField w lo (unbias lo x) = x := by
  simp [biasField, unbias]

/-- R114, R115: the packer's biased byte is the field with zeros above it. -/
theorem biasedByte_unbias {w : Nat} (lo : Int) (x : BitVec w) :
    biasedByte lo (unbias lo x) = x.setWidth config.chBits := by
  simp [biasedByte, unbias, BitVec.ofNat_toNat]

/-- R56: a field of `w` bits holds the `2 ^ w` values from the minimum up. -/
theorem unbias_range {w : Nat} (lo : Int) (x : BitVec w) : lo ≤ unbias lo x ∧ unbias lo x < lo + 2 ^ w := by
  have hx : (x.toNat : Int) < 2 ^ w := by exact_mod_cast x.isLt
  unfold unbias
  omega

/-- R56: and each of them. -/
theorem exists_unbias_eq {w : Nat} {lo d : Int} (hlo : lo ≤ d) (hhi : d < lo + 2 ^ w) :
    ∃ x : BitVec w, d = unbias lo x := by
  obtain ⟨n, hn⟩ := Int.eq_ofNat_of_zero_le (sub_nonneg.2 hlo)
  have hlt : n < 2 ^ w := by zify; omega
  refine ⟨BitVec.ofNat w n, ?_⟩
  rw [unbias, BitVec.toNat_ofNat, Nat.mod_eq_of_lt hlt]
  omega

/-! ## The Tags a group can hold -/

/-- The Tags whose payload is what the fields of a group hold: the well-formed Tags, and the Runs of 0, 1 and 63
(log entry 5). -/
inductive FitsGroup : Tag → Prop where
  | literal (p : Pixel) : FitsGroup (.literal p)
  | run (x : BitVec config.slotBits) : FitsGroup (.run x.toNat)
  | index (x : BitVec config.slotBits) : FitsGroup (.index x.toFin)
  | diffShort (x y z : BitVec config.dsBits) :
    FitsGroup (.diffShort (unbias config.dsMin x) (unbias config.dsMin y) (unbias config.dsMin z))
  | diffLong (x y z : BitVec config.dlBits) :
    FitsGroup (.diffLong (unbias config.dlMin x) (unbias config.dlMin y) (unbias config.dlMin z))

/-- R7, R50: the fields hold every well-formed Tag. -/
theorem fitsGroup_of_wf {t : Tag} (h : t.wf = true) : FitsGroup t := by
  cases t with
  | literal p => exact .literal p
  | run n =>
    obtain ⟨-, hmax⟩ : 2 ≤ n ∧ n ≤ 62 := by simpa [Tag.wf] using h
    have hn : (BitVec.ofNat config.slotBits n).toNat = n := Nat.mod_eq_of_lt (show n < 2 ^ 6 by omega)
    exact hn ▸ .run (BitVec.ofNat config.slotBits n)
  | index a => exact .index ⟨a⟩
  | diffShort dR dG dB =>
    obtain ⟨hR, hG, hB⟩ : (-2 ≤ dR ∧ dR ≤ 1) ∧ (-2 ≤ dG ∧ dG ≤ 1) ∧ (-2 ≤ dB ∧ dB ≤ 1) := by simpa [Tag.wf] using h
    have hfield : ∀ d : Int, -2 ≤ d ∧ d ≤ 1 → ∃ x : BitVec config.dsBits, d = unbias config.dsMin x :=
      fun d hd => exists_unbias_eq hd.1 (by simp; omega)
    obtain ⟨x, rfl⟩ := hfield dR hR
    obtain ⟨y, rfl⟩ := hfield dG hG
    obtain ⟨z, rfl⟩ := hfield dB hB
    exact .diffShort x y z
  | diffLong dR dG dB =>
    obtain ⟨hR, hG, hB⟩ : (-8 ≤ dR ∧ dR ≤ 7) ∧ (-8 ≤ dG ∧ dG ≤ 7) ∧ (-8 ≤ dB ∧ dB ≤ 7) := by simpa [Tag.wf] using h
    have hfield : ∀ d : Int, -8 ≤ d ∧ d ≤ 7 → ∃ x : BitVec config.dlBits, d = unbias config.dlMin x :=
      fun d hd => exists_unbias_eq hd.1 (by simp; omega)
    obtain ⟨x, rfl⟩ := hfield dR hR
    obtain ⟨y, rfl⟩ := hfield dG hG
    obtain ⟨z, rfl⟩ := hfield dB hB
    exact .diffLong x y z

/-- Log entry 5: of the Tags the fields hold, only a Run's length can be out of its range. -/
theorem FitsGroup.wf_or_run {t : Tag} (h : FitsGroup t) : t.wf = true ∨ ∃ n < 64, t = .run n := by
  cases h with
  | literal p => exact .inl rfl
  | run x => exact .inr ⟨x.toNat, x.isLt, rfl⟩
  | index x => exact .inl rfl
  | diffShort x y z =>
    have hrange : ∀ u : BitVec config.dsBits, -2 ≤ unbias config.dsMin u ∧ unbias config.dsMin u ≤ 1 :=
      fun u => (unbias_range (-2) u).imp_right fun h => by simp at h ⊢; omega
    exact .inl (by simpa [Tag.wf] using ⟨hrange x, hrange y, hrange z⟩)
  | diffLong x y z =>
    have hrange : ∀ u : BitVec config.dlBits, -8 ≤ unbias config.dlMin u ∧ unbias config.dlMin u ≤ 7 :=
      fun u => (unbias_range (-8) u).imp_right fun h => by simp at h ⊢; omega
    exact .inl (by simpa [Tag.wf] using ⟨hrange x, hrange y, hrange z⟩)

/-! ## The group of a Tag and its reading -/

/-- R54: the group of a DiffShort, field beside field. -/
theorem encodeGroup_diffShort_unbias (x y z : BitVec config.dsBits) :
    encodeGroup (.diffShort (unbias config.dsMin x) (unbias config.dsMin y) (unbias config.dsMin z)) =
      [config.idDiffShort ++ x ++ y ++ z] := by
  simp only [encodeGroup, shortField, biasField_unbias]

/-- R55: the group of a DiffLong, field beside field. -/
theorem encodeGroup_diffLong_unbias (x y z : BitVec config.dlBits) :
    encodeGroup (.diffLong (unbias config.dlMin x) (unbias config.dlMin y) (unbias config.dlMin z)) =
      [config.idDiffLong ++ x, y ++ z] := by
  simp only [encodeGroup, longField, biasField_unbias]

/-- R52: the group of a Run. -/
theorem encodeGroup_run_toNat (x : BitVec config.slotBits) : encodeGroup (.run x.toNat) = [config.idRun ++ x] := by
  simp only [encodeGroup, BitVec.ofNat_toNat, BitVec.setWidth_eq]

/-- R53: the group of an Index. -/
theorem encodeGroup_index_toFin (x : BitVec config.slotBits) :
    encodeGroup (.index x.toFin) = [config.idIndex ++ x] := by
  simp only [encodeGroup, BitVec.val_toFin, BitVec.ofNat_toNat, BitVec.setWidth_eq]

/-- R54: a DiffShort is read from its first byte's three fields. -/
theorem decodeGroup_of_diffShort {b : Byte} (h : variantOf b = some .diffShort) (rest : List Byte) :
    decodeGroup (b :: rest) =
      .ok (.diffShort (unbias config.dsMin (b.extractLsb' (2 * config.dsBits) config.dsBits))
        (unbias config.dsMin (b.extractLsb' config.dsBits config.dsBits))
        (unbias config.dsMin (b.extractLsb' 0 config.dsBits)), rest) := by
  simp [decodeGroup, h]

/-- R50 to R57: the group of a Tag, whatever follows it, reads as the Tag and what follows. -/
theorem FitsGroup.decodeGroup_encodeGroup {t : Tag} (h : FitsGroup t) (rest : List Byte) :
    decodeGroup (encodeGroup t ++ rest) = .ok (t, rest) := by
  cases h with
  | literal p => simp [encodeGroup, decodeGroup, variantOf_eq_literal_iff.2]
  | run x =>
    rw [encodeGroup_run_toNat]
    simp only [List.cons_append, List.nil_append, decodeGroup, variantOf_eq_run_iff.2 ⟨x, rfl⟩,
      BitVec.extractLsb'_append_eq_right]
  | index x =>
    rw [encodeGroup_index_toFin]
    simp only [List.cons_append, List.nil_append, decodeGroup, variantOf_eq_index_iff.2 ⟨x, rfl⟩,
      BitVec.extractLsb'_append_eq_right]
  | diffShort x y z =>
    obtain ⟨-, hx, hy, hz⟩ := extractLsb'_append_three config.idDiffShort x y z
    rw [Nat.one_mul] at hy
    rw [Nat.zero_mul] at hz
    rw [encodeGroup_diffShort_unbias, List.cons_append, List.nil_append,
      decodeGroup_of_diffShort (variantOf_eq_diffShort_iff.2 ⟨x, y, z, rfl⟩), hx, hy, hz]
  | diffLong x y z =>
    rw [encodeGroup_diffLong_unbias]
    simp only [List.cons_append, List.nil_append, decodeGroup, variantOf_eq_diffLong_iff.2 ⟨x, rfl⟩,
      BitVec.extractLsb'_append_eq_right, BitVec.extractLsb'_append_eq_left]

/-- R55: any byte is two delta fields. -/
theorem exists_eq_append_dlBits (c : Byte) : ∃ y z : BitVec config.dlBits, c = y ++ z :=
  ⟨c.extractLsb' config.dlBits config.dlBits, c.extractLsb' 0 config.dlBits, by revert c; decide⟩

/-- R57: the group alone. -/
theorem FitsGroup.decodeGroup_encodeGroup_self {t : Tag} (h : FitsGroup t) :
    decodeGroup (encodeGroup t) = .ok (t, []) := by
  simpa using h.decodeGroup_encodeGroup []

/-- R50 to R57: bytes read as a Tag and the rest exactly when they are the Tag's group and the rest. -/
theorem decodeGroup_eq_ok_iff {bs rest : List Byte} {t : Tag} :
    decodeGroup bs = .ok (t, rest) ↔ FitsGroup t ∧ bs = encodeGroup t ++ rest := by
  refine ⟨fun h => ?_, fun ⟨hfit, hbs⟩ => hbs ▸ hfit.decodeGroup_encodeGroup rest⟩
  suffices hs : ∃ u left, FitsGroup u ∧ bs = encodeGroup u ++ left by
    obtain ⟨u, left, hfit, rfl⟩ := hs
    rw [hfit.decodeGroup_encodeGroup] at h
    cases h
    exact ⟨hfit, rfl⟩
  cases bs with
  | nil => cases h
  | cons b bs =>
    cases hv : variantOf b with
    | none => simp [decodeGroup, hv] at h
    | some v =>
      cases v with
      | literal =>
        obtain rfl := variantOf_eq_literal_iff.1 hv
        match bs with
        | r :: g :: bl :: bs => exact ⟨_, bs, .literal ⟨r, g, bl⟩, rfl⟩
        | [] | [_] | [_, _] => simp [decodeGroup, hv] at h
      | diffLong =>
        obtain ⟨x, rfl⟩ := variantOf_eq_diffLong_iff.1 hv
        match bs with
        | c :: bs =>
          obtain ⟨y, z, rfl⟩ := exists_eq_append_dlBits c
          exact ⟨_, bs, .diffLong x y z, by rw [encodeGroup_diffLong_unbias]; rfl⟩
        | [] => simp [decodeGroup, hv] at h
      | run =>
        obtain ⟨x, rfl⟩ := variantOf_eq_run_iff.1 hv
        exact ⟨_, bs, .run x, by rw [encodeGroup_run_toNat]; rfl⟩
      | index =>
        obtain ⟨x, rfl⟩ := variantOf_eq_index_iff.1 hv
        exact ⟨_, bs, .index x, by rw [encodeGroup_index_toFin]; rfl⟩
      | diffShort =>
        obtain ⟨x, y, z, rfl⟩ := variantOf_eq_diffShort_iff.1 hv
        exact ⟨_, bs, .diffShort x y z, by rw [encodeGroup_diffShort_unbias]; rfl⟩

/-- R111 to R115: the packer's bytes are the group, with the fields put in place by shifts. -/
theorem FitsGroup.packBytes_eq {t : Tag} (h : FitsGroup t) : packBytes t = encodeGroup t := by
  have hbyte : ∀ {b c : Byte}, b = c.setWidth config.chBits → b = c := fun h => h.trans (BitVec.setWidth_eq _)
  cases h with
  | literal p => rfl
  | run x =>
    rw [encodeGroup_run_toNat]
    refine congrArg (fun b => [b]) (hbyte ?_)
    rw [BitVec.setWidth_append_eq_shiftLeft_setWidth_or, BitVec.ofNat_toNat, leading]
  | index x =>
    rw [encodeGroup_index_toFin]
    refine congrArg (fun b => [b]) (hbyte ?_)
    rw [BitVec.setWidth_append_eq_shiftLeft_setWidth_or, BitVec.val_toFin, BitVec.ofNat_toNat, leading]
  | diffShort x y z =>
    rw [encodeGroup_diffShort_unbias]
    refine congrArg (fun b => [b]) (hbyte ?_)
    simp only [biasedByte_unbias, leading, BitVec.setWidth_append_eq_shiftLeft_setWidth_or,
      BitVec.shiftLeft_or_distrib, ← BitVec.shiftLeft_add]
  | diffLong x y z =>
    rw [encodeGroup_diffLong_unbias]
    refine congr (congrArg List.cons (hbyte ?_)) (congrArg (fun b => [b]) (hbyte ?_))
    · rw [BitVec.setWidth_append_eq_shiftLeft_setWidth_or, biasedByte_unbias, leading]
    · rw [BitVec.setWidth_append_eq_shiftLeft_setWidth_or, biasedByte_unbias, biasedByte_unbias]

/-- R110, R116: the bytes PACK answers are those of a well-formed Tag's group. -/
theorem pack_eq_ok_iff {t : Tag} {bs : List Byte} : pack t = .ok bs ↔ t.wf = true ∧ bs = encodeGroup t := by
  cases hc : tagCause t with
  | none =>
    have hwf : t.wf = true := tagCause_eq_none_iff.1 hc
    simp [pack_of_wf hwf, hwf, (fitsGroup_of_wf hwf).packBytes_eq, eq_comm]
  | some c =>
    have hwf : t.wf ≠ true := fun h => by simp [tagCause_eq_none_iff.2 h] at hc
    simp [pack_of_cause hc, hwf]

/-- R57: what reads as a Tag starts with a first byte of a variant. -/
theorem exists_variantOf_of_decodeGroup {bs rest : List Byte} {t : Tag} (h : decodeGroup bs = .ok (t, rest)) :
    ∃ b left, bs = b :: left ∧ (variantOf b).isSome = true := by
  cases bs with
  | nil => cases h
  | cons b left =>
    refine ⟨b, left, rfl, ?_⟩
    cases hv : variantOf b with
    | none => simp [decodeGroup, hv] at h
    | some v => rfl

/-- Settles O6: the reserved bytes are `variantOf_eq_none_iff`; a packed group reads back, so it starts with another. -/
theorem reservedFirstBytesAreNeverSent : Obligations.ReservedFirstBytesAreNeverSent := by
  refine ⟨fun _ => variantOf_eq_none_iff, fun t bs hpack => ?_⟩
  obtain ⟨hwf, rfl⟩ := pack_eq_ok_iff.1 hpack
  exact exists_variantOf_of_decodeGroup (fitsGroup_of_wf hwf).decodeGroup_encodeGroup_self

/-! ## The strict reader and streams of groups (R57, R59, R60) -/

/-- R59: the strict reader reads what the decoder reads, where that is a well-formed Tag. -/
theorem readGroup_of_decodeGroup {bs rest : List Byte} {t : Tag} (h : decodeGroup bs = .ok (t, rest))
    (hwf : t.wf = true) : readGroup bs = .ok (t, rest) := by
  cases t with
  | run n =>
    have hrange : 2 ≤ n ∧ n ≤ 62 := by simpa [Tag.wf] using hwf
    simp [readGroup, h, hrange]
  | literal p => simp [readGroup, h]
  | index a => simp [readGroup, h]
  | diffShort dR dG dB => simp [readGroup, h]
  | diffLong dR dG dB => simp [readGroup, h]

/-- R59: and nothing else. -/
theorem decodeGroup_of_readGroup {bs rest : List Byte} {t : Tag} (h : readGroup bs = .ok (t, rest)) :
    decodeGroup bs = .ok (t, rest) ∧ t.wf = true := by
  simp only [readGroup] at h
  split at h
  · rename_i n left hd
    split at h
    · rename_i hrange
      cases h
      exact ⟨hd, by simpa [Tag.wf] using hrange⟩
    · cases h
  · rename_i hnot
    refine ⟨h, ?_⟩
    rcases (decodeGroup_eq_ok_iff.1 h).1.wf_or_run with hwf | ⟨n, -, rfl⟩
    · exact hwf
    · exact absurd h (hnot n rest)

/-- R57, R59: bytes read strictly as a Tag and the rest exactly when the Tag is well-formed and they are its group and
the rest. -/
theorem readGroup_eq_ok_iff {bs rest : List Byte} {t : Tag} :
    readGroup bs = .ok (t, rest) ↔ t.wf = true ∧ bs = encodeGroup t ++ rest := by
  refine ⟨fun h => ?_, fun ⟨hwf, hbs⟩ =>
    readGroup_of_decodeGroup (decodeGroup_eq_ok_iff.2 ⟨fitsGroup_of_wf hwf, hbs⟩) hwf⟩
  obtain ⟨hdec, hwf⟩ := decodeGroup_of_readGroup h
  exact ⟨hwf, (decodeGroup_eq_ok_iff.1 hdec).2⟩

/-- Settles O2: one direction of `readGroup_eq_ok_iff`. -/
theorem strictReadingIsTheEncodingReversed : Obligations.StrictReadingIsTheEncodingReversed :=
  fun _ _ _ => readGroup_eq_ok_iff.1

/-- R117: the bytes of one Tag and those that follow it. -/
theorem packAll_cons {t : Tag} (hwf : t.wf = true) (ts : List Tag) :
    packAll (t :: ts) = encodeGroup t ++ packAll ts := by
  simp [packAll, (fitsGroup_of_wf hwf).packBytes_eq]

/-- R57: no group is empty. -/
theorem encodeGroup_ne_nil (t : Tag) : encodeGroup t ≠ [] := by
  cases t <;> exact List.cons_ne_nil _ _

/-- R57: one group more is read from the front of a stream. -/
theorem readGroups_encodeGroup_append {t : Tag} (hwf : t.wf = true) (k : Nat) (rest : List Byte) :
    readGroups (k + 1) (encodeGroup t ++ rest) = (readGroups k rest).map (t :: ·) := by
  have hread : readGroup (encodeGroup t ++ rest) = .ok (t, rest) := readGroup_eq_ok_iff.2 ⟨hwf, rfl⟩
  obtain ⟨b, left, hg⟩ := List.exists_cons_of_ne_nil (encodeGroup_ne_nil t)
  rw [hg, List.cons_append] at hread ⊢
  simp only [readGroups, hread]
  cases readGroups k rest with
  | error e => rfl
  | ok ts => rfl

/-- R57, R60: the Tags of a stream, read in as many turns as there are Tags or more. -/
theorem readGroups_packAll {ts : List Tag} (hwf : ∀ t ∈ ts, t.wf = true) {k : Nat} (hk : ts.length ≤ k) :
    readGroups k (packAll ts) = .ok ts := by
  induction ts generalizing k with
  | nil => cases k <;> rfl
  | cons t ts ih =>
    obtain ⟨ht, hts⟩ := List.forall_mem_cons.1 hwf
    obtain ⟨k, rfl⟩ : ∃ j, k = j + 1 := ⟨k - 1, by simp at hk; omega⟩
    rw [packAll_cons ht, readGroups_encodeGroup_append ht, ih hts (Nat.le_of_succ_le_succ hk)]
    rfl

/-- R57: a stream has at least a byte for each of its Tags. -/
theorem length_le_length_packAll {ts : List Tag} (hwf : ∀ t ∈ ts, t.wf = true) : ts.length ≤ (packAll ts).length := by
  induction ts with
  | nil => exact Nat.zero_le _
  | cons t ts ih =>
    obtain ⟨ht, hts⟩ := List.forall_mem_cons.1 hwf
    have hpos : 0 < (encodeGroup t).length := List.length_pos_iff.2 (encodeGroup_ne_nil t)
    have := ih hts
    rw [packAll_cons ht, List.length_append, List.length_cons]
    omega

/-- Settles O3: by induction on the Tags (`readGroups_packAll`); the stream's length is turns enough. -/
theorem packedStreamParsesToItsTags : Obligations.PackedStreamParsesToItsTags :=
  fun _ hwf => readGroups_packAll hwf (length_le_length_packAll hwf)

end Sys2Proof.Machine
end

section
/-! SUPPORT. R62, R63: token words, and instructions through their codes: decoded, presented and run. -/

namespace Sys2Proof.Machine

/-! ## Token words (R62) -/

/-- R62: `in_eos`, bit 24, of a word of 25 bits. -/
theorem inEos_eq (w : TokenWord) : w.getLsbD pixelBits = decide (2 ^ 24 ≤ w.toNat) :=
  BitVec.msb_eq_getLsbD_last w ▸ BitVec.msb_eq_decide w

/-- R62: a word with `in_eos = 1`. -/
theorem decodeToken_of_le {w : TokenWord} (h : 2 ^ 24 ≤ w.toNat) : decodeToken w = .eos :=
  if_pos (by rw [inEos_eq, decide_eq_true h])

/-- R62: a word with `in_eos = 0`. -/
theorem decodeToken_of_lt {w : TokenWord} (h : w.toNat < 2 ^ 24) : decodeToken w = .pix (pixelOfWord w) :=
  if_neg (by rw [inEos_eq, decide_eq_true_iff]; exact Nat.not_le.2 h)

/-- R62: a word below 2^24 is its three channels, R in bits 23:16, G in 15:8, B in 7:0. -/
theorem toNat_eq_of_pixelOfWord {w : TokenWord} (h : w.toNat < 2 ^ 24) :
    w.toNat = (pixelOfWord w).r.toNat * 65536 + (pixelOfWord w).g.toNat * 256 + (pixelOfWord w).b.toNat := by
  simp only [pixelOfWord, BitVec.extractLsb'_toNat, Nat.shiftRight_eq_div_pow, config_chBits]
  omega

/-- R62: a token's word reads as the token. -/
theorem decodeToken_encodeToken (t : Token) : decodeToken (encodeToken t) = t := by
  cases t with
  | pix p =>
    obtain ⟨-, hhigh⟩ := Laws.TableBits.pix p
    have hlt : (encodeToken (.pix p)).toNat < 2 ^ 24 := by
      change (encodeToken (.pix p)).toNat / 2 ^ 24 = 0 at hhigh
      omega
    rw [decodeToken_of_lt hlt]
    exact congrArg Token.pix (pixelOfWord_append 0#1 p)
  | eos => decide

/-- Settles O7: by bit 24. -/
theorem everyTokenWordIsAToken : Obligations.EveryTokenWordIsAToken :=
  ⟨fun _ h => decodeToken_of_le h, fun _ h => ⟨_, decodeToken_of_lt h, toNat_eq_of_pixelOfWord h⟩,
    decodeToken_encodeToken⟩

/-! ## Instructions through their codes -/

/-- R63: an instruction is a Tag's row or a token's. -/
theorem instr_cases (i : Instr) : (∃ t : Tag, i = t.toInstr) ∨ ∃ t : Token, i = t.toInstr := by
  cases i with
  | literal p => exact .inl ⟨.literal p, rfl⟩
  | run n => exact .inl ⟨.run n, rfl⟩
  | index a => exact .inl ⟨.index a, rfl⟩
  | diffShort dR dG dB => exact .inl ⟨.diffShort dR dG dB, rfl⟩
  | diffLong dR dG dB => exact .inl ⟨.diffLong dR dG dB, rfl⟩
  | pix p => exact .inr ⟨.pix p, rfl⟩
  | eos => exact .inr ⟨.eos, rfl⟩

/-! What the model's functions of an instruction do on the row of a Tag and of a token. -/

@[simp] theorem wf_tag_toInstr (t : Tag) : t.toInstr.wf = t.wf := by cases t <;> rfl
@[simp] theorem encode_tag_toInstr (t : Tag) : encode t.toInstr = .group (encodeGroup t) := by cases t <;> rfl
@[simp] theorem encode_token_toInstr (t : Token) : encode t.toInstr = .token (encodeToken t) := by cases t <;> rfl
@[simp] theorem presentation_tag_toInstr (t : Tag) : presentation t.toInstr = .tagWord (encodeBus t) := by
  cases t <;> rfl
@[simp] theorem presentation_token_toInstr (t : Token) : presentation t.toInstr = .token (encodeToken t) := by
  cases t <;> rfl

/-- R57: a group is read whole. -/
theorem decode_group_eq_ok_iff {bs : List Byte} {i : Instr} :
    decode (.group bs) = .ok i ↔ ∃ t, FitsGroup t ∧ bs = encodeGroup t ∧ i = t.toInstr := by
  constructor
  · intro h
    simp only [decode] at h
    split at h
    · rename_i t hd
      obtain ⟨hfit, hbs⟩ := decodeGroup_eq_ok_iff.1 hd
      cases h
      exact ⟨t, hfit, by simpa using hbs, rfl⟩
    · cases h
    · cases h
  · rintro ⟨t, hfit, rfl, rfl⟩
    simp [decode, hfit.decodeGroup_encodeGroup_self]

/-- Settles O1: a Tag by its group, a token by its word. -/
theorem everyWellFormedInstructionDecodesBack : Obligations.EveryWellFormedInstructionDecodesBack := by
  intro i hwf
  rcases instr_cases i with ⟨t, rfl⟩ | ⟨t, rfl⟩
  · rw [wf_tag_toInstr] at hwf
    rw [encode_tag_toInstr]
    exact decode_group_eq_ok_iff.2 ⟨t, fitsGroup_of_wf hwf, rfl, rfl⟩
  · rw [encode_token_toInstr, decode, decodeToken_encodeToken]

/-! ## A number of the table, stored to be fetched -/

/-- R22: the tag bus carries every Tag that a group holds. -/
theorem FitsGroup.decodeBus_encodeBus {t : Tag} (h : FitsGroup t) : decodeBus (encodeBus t) = some t := by
  rcases h.wf_or_run with hwf | ⟨n, hn, rfl⟩
  · exact tagBusCarriesEveryWellFormedTag t hwf
  · have hnum : (encodeBus (.run n)).extractLsb' 0 config.slotBits = BitVec.ofNat config.slotBits n :=
      extractLsb'_busNumber 1#3 n
    rw [decodeBus_of_kind_run (w := encodeBus (.run n)) (busKind_append 1#3 _), hnum, BitVec.toNat_ofNat,
      Nat.mod_eq_of_lt (show n < 2 ^ 6 from hn)]

/-- Whatever a code decodes to is fetched from the word it is presented by. -/
theorem fetch_presentation_of_decode {c : Code} {i : Instr} (h : decode c = .ok i) :
    fetch (presentation i) = some i := by
  cases c with
  | group bs =>
    obtain ⟨t, hfit, -, rfl⟩ := decode_group_eq_ok_iff.1 h
    rw [presentation_tag_toInstr, fetch, hfit.decodeBus_encodeBus, Option.map_some]
  | token w =>
    obtain rfl : (decodeToken w).toInstr = i := by simpa [decode] using h
    rw [presentation_token_toInstr, fetch, decodeToken_encodeToken]

/-- R63: a number of the table that is an instruction is a code's. -/
theorem exists_decode_of_decodeTableWord {nbits w : Nat} {i : Instr} (h : decodeTableWord nbits w = some i) :
    ∃ c, decode c = .ok i := by
  simp only [decodeTableWord, decodeTableNumber] at h
  split at h
  · rename_i j hj
    cases h
    split at hj
    · rename_i c hc
      exact ⟨c, hj⟩
    · cases hj
  · cases h

/-- Settles O12: the instruction stands alone at the first edge, and is fetched from its own word. -/
theorem fetchWordRunsTheTableInstruction : Obligations.FetchWordRunsTheTableInstruction := by
  intro s nbits w i h
  obtain ⟨c, hc⟩ := exists_decode_of_decodeTableWord h
  have hfetch : s.withFetchWord nbits w = scheduleNext (edgeFor i) s := by simp [State.withFetchWord, h]
  rw [hfetch, step_of_cons (scheduleNext_edges ..)]
  simp [clockEdge, edgeFor, runPresented, fetch_presentation_of_decode hc]

/-- Settles O10: each word evaluated. -/
theorem sampleWordsDecode : Obligations.SampleWordsDecode := by
  unfold Obligations.SampleWordsDecode
  decide

end Sys2Proof.Machine
end

section
/-! SUPPORT. R70 to R74: HASH, and LOOKUP after INSERT. R129: which slots a pixel can write. -/

namespace Sys2Proof.Machine

/-! ## HASH (R70) -/

/-- R70: the 8-bit sum is short of the integer sum by multiples of 256, which are multiples of 64. -/
theorem pixelHash_val_eq_byteSum (p : Pixel) : (pixelHash p).val = (p.r + p.g + p.b).toNat % 64 := by
  simp only [pixelHash_val, BitVec.toNat_add, config_chBits]
  omega

/-- R70: pixels of one channel sum have one hash. -/
theorem pixelHash_eq_of_sum {p q : Pixel}
    (h : p.r.toNat + p.g.toNat + p.b.toNat = q.r.toNat + q.g.toNat + q.b.toNat) : pixelHash p = pixelHash q :=
  Fin.ext (by rw [pixelHash_val, pixelHash_val, h])

/-- Settles O16: the channels enter the hash through their sum alone. -/
theorem hashIsTheChannelSumModulo64 : Obligations.HashIsTheChannelSumModulo64 :=
  fun r g b => ⟨pixelHash_val ⟨r, g, b⟩, pixelHash_val_eq_byteSum ⟨r, g, b⟩,
    pixelHash_eq_of_sum (by simp only; omega), pixelHash_eq_of_sum (by simp only; omega)⟩

/-! ## LOOKUP after INSERT (R71, R72, R74) -/

/-- R71, R74 item d: a hit names the slot that holds the pixel, which is the pixel's own. -/
theorem cacheLookup_eq_some_iff_read {c : Cache} {p : Pixel} {a : Slot} :
    cacheLookup c p = some a ↔ a = pixelHash p ∧ cacheRead c a = some p := by
  rw [cacheLookup_eq_some_iff]
  exact and_congr_right fun ha => by rw [ha]

/-- R74 item a: the pixel just inserted is a hit. -/
theorem cacheLookup_cacheInsert_same (c : Cache) (p : Pixel) :
    cacheLookup (cacheInsert c p) p = some (pixelHash p) :=
  cacheLookup_eq_some_iff.2 ⟨rfl, cacheRead_cacheInsert_same c p⟩

/-- R74 item b: another pixel of the same hash has been evicted. -/
theorem cacheLookup_cacheInsert_collision (c : Cache) {p q : Pixel} (hne : p ≠ q) (hhash : pixelHash p = pixelHash q) :
    cacheLookup (cacheInsert c q) p = none := by
  rw [cacheLookup_eq_none_iff, hhash, cacheRead_cacheInsert_same]
  exact fun h => hne (Option.some.inj h).symm

/-- R74 item c: the lookup of a pixel of another hash answers as before. -/
theorem cacheLookup_cacheInsert_other (c : Cache) {p q : Pixel} (h : pixelHash p ≠ pixelHash q) :
    cacheLookup (cacheInsert c q) p = cacheLookup c p := by
  simp [cacheLookup, isHit, cacheRead_cacheInsert_other h.symm]

/-- R74 item e: in canonical form no slot is listed twice, so there are at most as many entries as slots. -/
theorem cache_length_le {c : Cache} (h : Cache.wf c) : c.length ≤ 64 := by
  have hnodup : (c.map Prod.fst).Nodup := List.pairwise_map.2 (h.imp ne_of_lt)
  simpa using hnodup.length_le_card

/-- R72: INSERT done twice is INSERT done once. -/
theorem cacheInsert_idem {c : Cache} (h : Cache.wf c) (p : Pixel) :
    cacheInsert (cacheInsert c p) p = cacheInsert c p :=
  cacheInsert_of_read (cacheInsert_wf h p) (cacheRead_cacheInsert_same c p)

/-- Settles O17: items a to d by the lookup after an INSERT and what a hit says; item e by the number of slots, and
because a slot that two pixels share reads as one of them. -/
theorem cacheLaws : Obligations.CacheLaws := by
  refine ⟨fun c p => ⟨cacheLookup_cacheInsert_same c p, cacheRead_cacheInsert_same c p⟩,
    fun c p q hne hhash => ⟨cacheLookup_cacheInsert_collision _ hne hhash, cacheLookup_cacheInsert_same _ q⟩,
    fun c _ _ h => cacheLookup_cacheInsert_other c h,
    fun _ _ _ => cacheLookup_eq_some_iff_read.1,
    fun _ => cache_length_le, ?_⟩
  rintro c p q _ _ hp hq rfl rfl hhash
  rw [← hhash, hp] at hq
  exact Option.some.inj hq

/-- Settles O18: the operations' laws, one by one. -/
theorem cacheOperationsAndTheirFrames : Obligations.CacheOperationsAndTheirFrames :=
  ⟨fun _ _ _ => cacheLookup_eq_some_iff_read,
    fun _ _ => cacheLookup_eq_none_iff.2,
    cacheRead_cacheInsert_same,
    fun _ _ _ ha => cacheRead_cacheInsert_other ha.symm,
    fun _ p h => cacheInsert_wf h p,
    fun _ p h => cacheInsert_idem h p,
    cacheRead_clear,
    fun p => cacheLookup_eq_none_iff.2 (by simp)⟩

/-! ## The cache after a pixel (R91, R99, R129) -/

/-- R117, R148: no emission touches the cache, whether it appends the Tag or faults. -/
@[simp] theorem emitTag_cache (t : Tag) (s : State) : (emitTag t s).cache = s.cache := by
  rcases emitTag_cases t s with ⟨-, e⟩ | ⟨c, -, e⟩
  · rw [e]
  · rw [e, raise_cache]

/-- R83: closing a run of a pixel that the cache holds leaves the cache. -/
@[simp] theorem closeRun_cache (n : Nat) (q : Pixel) (s : State) : (closeRun n q s).cache = s.cache :=
  emitTag_cache ..

/-- R91, R129: under the invariant FLUSH leaves the cache. -/
theorem CoreInv.flush_cache {s : State} (h : CoreInv s) (he : s.err = false) : (flush s).cache = s.cache := by
  rcases h.flush_cases he with ⟨-, e⟩ | ⟨q, -, -, -, e⟩
  · rw [e]
  · rw [e, closeRun_cache]

/-- R129: under the invariant a repeat leaves the cache and any other pixel is inserted. -/
theorem CoreInv.acceptPix_cache {s : State} (h : CoreInv s) (he : s.err = false) (p : Pixel) :
    (acceptPix p s).cache = if s.prev = some p then s.cache else cacheInsert s.cache p := by
  rcases h.acceptPix_cases he p with ⟨hp, -, e⟩ | ⟨hp, -, e⟩ | ⟨hp, e⟩
  · rw [e, if_pos hp]
  · rw [e, if_pos hp, closeRun_cache]
  · rw [e, if_neg hp, selectPixel_eq p (h.flush_err he), ← h.flush_cache he]

/-- Settles O38: the cache after a pixel is the one before, or that with the pixel inserted. -/
theorem pixWritesOnlyItsOwnSlot : Obligations.PixWritesOnlyItsOwnSlot := by
  intro s t p h hexec
  obtain ⟨he, ht⟩ := exec_eq_next hexec
  have hcache : t.cache = if s.prev = some p then s.cache else cacheInsert s.cache p := ht ▸ h.acceptPix_cache he p
  by_cases hp : s.prev = some p
  · rw [if_pos hp] at hcache
    exact ⟨fun _ _ => by rw [hcache], fun _ => hcache⟩
  · rw [if_neg hp] at hcache
    exact ⟨fun _ ha => by rw [hcache, cacheRead_cacheInsert_other ha.symm], fun h => absurd h hp⟩

end Sys2Proof.Machine
end

section
/-! SUPPORT. R80 to R82: RUNLEN, and how the batch scan splits a stretch of repeats. -/

namespace Sys2Proof.Machine

/-! ## RUNLEN (R80) -/

/-- R80: the count never passes the cap. -/
theorem countRepeats_le (q : Pixel) (cap : Nat) (l : List Pixel) : countRepeats q cap l ≤ cap := by
  induction cap generalizing l with
  | zero => exact le_rfl
  | succ cap ih =>
    cases l with
    | nil => exact Nat.zero_le _
    | cons p rest =>
      simp only [countRepeats]
      split
      · exact Nat.succ_le_succ (ih rest)
      · exact Nat.zero_le _

/-- R80: every pixel counted equals `q`. -/
theorem getElem?_of_lt_countRepeats {q : Pixel} {cap : Nat} {l : List Pixel} {j : Nat}
    (h : j < countRepeats q cap l) : l[j]? = some q := by
  induction cap generalizing l j with
  | zero => exact absurd h (Nat.not_lt_zero j)
  | succ cap ih =>
    cases l with
    | nil => exact absurd h (Nat.not_lt_zero j)
    | cons p rest =>
      simp only [countRepeats] at h
      split at h
      case isTrue hp =>
        cases j with
        | zero => exact congrArg some hp
        | succ j => exact ih (l := rest) (Nat.lt_of_succ_lt_succ h)
      case isFalse => exact absurd h (Nat.not_lt_zero j)

/-- R80: the count stops at the cap, at the end of the pixels or at one that differs from `q`. -/
theorem countRepeats_stops (q : Pixel) (cap : Nat) (l : List Pixel) :
    countRepeats q cap l = cap ∨ l[countRepeats q cap l]? ≠ some q := by
  induction cap generalizing l with
  | zero => exact .inl rfl
  | succ cap ih =>
    cases l with
    | nil => exact .inr nofun
    | cons p rest =>
      simp only [countRepeats]
      split
      case isTrue => exact (ih rest).imp (congrArg (· + 1)) id
      case isFalse hp => exact .inr fun h => hp (Option.some.inj h)

/-- Settles O49: RUNLEN is the count over the pixels from position `i` on. -/
theorem runLengthCountsRepeatsUpToTheCap : Obligations.RunLengthCountsRepeatsUpToTheCap := by
  intro q seq i
  simp only [← List.getElem?_drop]
  exact ⟨countRepeats_le .., fun _ => getElem?_of_lt_countRepeats, countRepeats_stops ..⟩

/-- R80: among `n` repeats of `q` the count stops at the cap or at the end. -/
theorem countRepeats_replicate (q : Pixel) (cap n : Nat) :
    countRepeats q cap (List.replicate n q) = min cap n := by
  induction cap generalizing n with
  | zero => simp [countRepeats]
  | succ cap ih =>
    cases n with
    | zero => rfl
    | succ n => simp [countRepeats, List.replicate_succ, ih, Nat.succ_min_succ]

/-- R80, R82: RUNLEN inside a stretch of equal pixels, `m` of them still to come. -/
theorem runLen_replicate (q : Pixel) (i m : Nat) : runLen q (List.replicate (i + m) q) i = min 62 m := by
  rw [runLen, List.drop_replicate, Nat.add_sub_cancel_left, countRepeats_replicate, config_runMax]

/-! ## The steps and the loop of the scan (R126, R127) -/

/-- R127: the normal path of the pixel at `pos`. -/
theorem scanPixel_of_getElem? {seq : List Pixel} {s : Scan} {p : Pixel} (h : seq[s.pos]? = some p) :
    scanPixel seq s =
      { cache := cacheInsert s.cache p, prev := some p, pos := s.pos + 1,
        tags := s.tags ++ [normal s.cache s.prev p] } := by
  simp [scanPixel, h]

/-- R81, R97, R127: a step at which repeats come, of a `prev` that the cache holds, consumes them under the one Tag that
closes a run of that length. -/
theorem scanStep_of_repeats {seq : List Pixel} {s : Scan} {q : Pixel} (hq : s.prev = some q)
    (hread : cacheRead s.cache (pixelHash q) = some q) (h0 : 0 < runLen q seq s.pos) :
    scanStep seq s =
      { s with
        cache := cacheInsert s.cache q
        pos := s.pos + runLen q seq s.pos
        tags := s.tags ++ [closingTag (runLen q seq s.pos) q] } := by
  by_cases h1 : runLen q seq s.pos = 1
  · have hpix : seq[s.pos]? = some q := by
      rw [← Nat.add_zero s.pos, ← List.getElem?_drop]
      exact getElem?_of_lt_countRepeats h0
    simp [scanStep, hq, qualifies, h1, scanPixel_of_getElem? hpix, normal_of_hit hread, closingTag]
  · have h2 : 2 ≤ runLen q seq s.pos := by omega
    simp [scanStep, hq, qualifies, h2, h1, closingTag]

/-- R126: at the end of the input the loop stops, whatever turns are left. -/
theorem scanLoop_of_le {seq : List Pixel} {s : Scan} (h : seq.length ≤ s.pos) (turns : Nat) :
    scanLoop seq turns s = s := by
  cases turns with
  | zero => rfl
  | succ turns => exact if_neg (Nat.not_lt.2 h)

/-- R126: before the end of the input the loop takes a step. -/
theorem scanLoop_succ_of_lt {seq : List Pixel} {s : Scan} (h : s.pos < seq.length) (turns : Nat) :
    scanLoop seq (turns + 1) s = scanLoop seq turns (scanStep seq s) := if_pos h

/-! ## A stretch of repeats (R82) -/

/-- R82: the Tags of `k` repeats of `q`, where the cache holds `q`: the full runs, then what is left. -/
def repeatTags (q : Pixel) (k : Nat) : List Tag :=
  List.replicate (k / 62) (.run 62) ++ if k % 62 = 0 then [] else [closingTag (k % 62) q]

/-- R82: no repeats, no Tags. -/
@[simp] theorem repeatTags_zero (q : Pixel) : repeatTags q 0 = [] := rfl

/-- R82: the first Tag of a stretch closes as many repeats as the cap allows; the Tags of the others follow. -/
theorem repeatTags_of_pos (q : Pixel) {k : Nat} (h : 0 < k) :
    repeatTags q k = closingTag (min 62 k) q :: repeatTags q (k - min 62 k) := by
  rcases Nat.lt_or_ge k 62 with hlt | hge
  · rw [min_eq_right hlt.le, Nat.sub_self, repeatTags, Nat.div_eq_of_lt hlt, Nat.mod_eq_of_lt hlt, if_neg h.ne']
    rfl
  · obtain ⟨j, rfl⟩ := Nat.exists_eq_add_of_le' hge
    rw [min_eq_left hge, Nat.add_sub_cancel, repeatTags, Nat.add_div_right j (by decide), Nat.add_mod_right]
    rfl

/-- R82: from inside a stretch of equal pixels that the cache holds, the loop appends the Tags of the repeats still to
come. -/
theorem scanLoop_replicate_tags {q : Pixel} {cache : Cache} (hread : cacheRead cache (pixelHash q) = some q)
    {turns m : Nat} (hm : m ≤ turns) (i : Nat) (ts : List Tag) :
    (scanLoop (List.replicate (i + m) q) turns { cache := cache, prev := some q, pos := i, tags := ts }).tags =
      ts ++ repeatTags q m := by
  induction turns generalizing cache m i ts with
  | zero =>
    obtain rfl : m = 0 := Nat.le_zero.1 hm
    rw [scanLoop, repeatTags_zero, List.append_nil]
  | succ turns ih =>
    rcases Nat.eq_zero_or_pos m with rfl | h0
    · rw [scanLoop_of_le (by simp), repeatTags_zero, List.append_nil]
    · have hlen := runLen_replicate q i m
      have hpos : i + m = i + min 62 m + (m - min 62 m) := by omega
      rw [scanLoop_succ_of_lt (by simpa using h0), scanStep_of_repeats rfl hread (by simp only [hlen]; omega)]
      simp only [hlen]
      rw [hpos, ih (cacheRead_cacheInsert_same ..) (by omega), repeatTags_of_pos q h0, List.append_assoc]
      rfl

/-- R100, R126: the first step of the scan is the Literal of the first pixel. -/
theorem scanStep_scanStart (p : Pixel) (rest : List Pixel) :
    scanStep (p :: rest) scanStart = { cache := cacheInsert [] p, prev := some p, pos := 1, tags := [.literal p] } :=
  scanPixel_of_getElem? (seq := p :: rest) (s := scanStart) (p := p) rfl

/-- R82: a stretch is its first occurrence and the repeats. -/
theorem compress_replicate (p : Pixel) (k : Nat) :
    compress (List.replicate (k + 1) p) = .literal p :: repeatTags p k := by
  rw [compress, List.length_replicate, scanLoop_succ_of_lt (by simp [scanStart]), List.replicate_succ,
    scanStep_scanStart, ← List.replicate_succ, Nat.add_comm k 1]
  exact scanLoop_replicate_tags (cacheRead_cacheInsert_same [] p) le_rfl 1 [.literal p]

/-- Settles O56: the Tag of what is left is an Index or a Run. -/
theorem longRunsSplitAtTheCap : Obligations.LongRunsSplitAtTheCap := by
  intro p k
  rw [compress_replicate, repeatTags, closingTag, apply_ite (fun t : Tag => [t])]

end Sys2Proof.Machine
end

section
/-! SUPPORT. R93 to R101: what NORMAL chooses, what the choice says of the pixel, and the first pixel of a run. -/

namespace Sys2Proof.Machine

/-! ## NORMAL (R93 to R97) -/

/-- R97: a miss leaves the choice to the differences. -/
theorem normal_of_miss {c : Cache} {p : Pixel} (h : cacheRead c (pixelHash p) ≠ some p) (prev : Option Pixel) :
    normal c prev p = normalMiss prev p := by
  simp [normal, cacheLookup_eq_none_iff.2 h]

/-- R94: a pixel that missed, with differences that fit DiffShort. -/
theorem normalMiss_of_fitsShort {p q : Pixel} (h : fitsShort (delta p q) = true) :
    normalMiss (some q) p = .diffShort (delta p q).dR (delta p q).dG (delta p q).dB := if_pos h

/-- R95: a pixel that missed, with differences that fit DiffLong alone. -/
theorem normalMiss_of_fitsLong {p q : Pixel} (hs : ¬fitsShort (delta p q) = true) (hl : fitsLong (delta p q) = true) :
    normalMiss (some q) p = .diffLong (delta p q).dR (delta p q).dG (delta p q).dB :=
  (if_neg hs).trans (if_pos hl)

/-- R96: a pixel that missed, with differences that fit neither. -/
theorem normalMiss_of_not_fits {p q : Pixel} (hs : ¬fitsShort (delta p q) = true) (hl : ¬fitsLong (delta p q) = true) :
    normalMiss (some q) p = .literal p :=
  (if_neg hs).trans (if_neg hl)

/-- R94, R95: what fits DiffShort fits DiffLong. -/
theorem fitsLong_of_fitsShort {d : Deltas} (h : fitsShort d = true) : fitsLong d = true := by
  rw [fitsShort_iff] at h
  rw [fitsLong_iff]
  omega

/-- Settles O20: hit, no predecessor, then the differences' tests in turn. -/
theorem normalPathPriority : Obligations.NormalPathPriority := by
  intro c prev p
  refine ⟨normal_wf c prev p, normal_of_hit, ?_, ?_⟩
  · rintro hmiss rfl
    exact normal_of_miss hmiss none
  · rintro q _ _ _ hmiss rfl rfl rfl rfl
    rw [normal_of_miss hmiss]
    refine ⟨fun hs => normalMiss_of_fitsShort (fitsShort_iff.2 hs),
      fun hs hl => normalMiss_of_fitsLong (mt fitsShort_iff.1 hs) (fitsLong_iff.2 hl), fun hl => ?_⟩
    have hl' : ¬fitsLong (delta p q) = true := mt fitsLong_iff.1 hl
    exact normalMiss_of_not_fits (mt fitsLong_of_fitsShort hl') hl'

/-- R97: the choices of NORMAL, each with the tests that lead to it. -/
inductive Choice (c : Cache) (prev : Option Pixel) (p : Pixel) : Tag → Prop
  | index (hit : cacheRead c (pixelHash p) = some p) : Choice c prev p (.index (pixelHash p))
  | literal (miss : cacheRead c (pixelHash p) ≠ some p)
      (far : ∀ q, prev = some q → ¬fitsLong (delta p q) = true) : Choice c prev p (.literal p)
  | diffShort (q : Pixel) (hprev : prev = some q) (miss : cacheRead c (pixelHash p) ≠ some p)
      (short : fitsShort (delta p q) = true) :
      Choice c prev p (.diffShort (delta p q).dR (delta p q).dG (delta p q).dB)
  | diffLong (q : Pixel) (hprev : prev = some q) (miss : cacheRead c (pixelHash p) ≠ some p)
      (not_short : ¬fitsShort (delta p q) = true) (long : fitsLong (delta p q) = true) :
      Choice c prev p (.diffLong (delta p q).dR (delta p q).dG (delta p q).dB)

/-- R97: the Tag of the normal path is one of the choices. -/
theorem choice_normal (c : Cache) (prev : Option Pixel) (p : Pixel) : Choice c prev p (normal c prev p) := by
  by_cases hit : cacheRead c (pixelHash p) = some p
  · rw [normal_of_hit hit]
    exact .index hit
  · rw [normal_of_miss hit]
    cases prev with
    | none => exact .literal hit nofun
    | some q =>
      by_cases hl : fitsLong (delta p q) = true
      · by_cases hs : fitsShort (delta p q) = true
        · rw [normalMiss_of_fitsShort hs]
          exact .diffShort q rfl hit hs
        · rw [normalMiss_of_fitsLong hs hl]
          exact .diffLong q rfl hit hs hl
      · rw [normalMiss_of_not_fits (mt fitsLong_of_fitsShort hl) hl]
        exact .literal hit fun _ hq => Option.some.inj hq ▸ hl

/-- R97: what the Tag of the normal path says of the tests. -/
theorem choice_of_normal_eq {c : Cache} {prev : Option Pixel} {p : Pixel} {t : Tag} (h : normal c prev p = t) :
    Choice c prev p t := h ▸ choice_normal c prev p

/-- R101 item e: an Index is a hit. -/
theorem read_of_normal_eq_index {c : Cache} {prev : Option Pixel} {p : Pixel} {a : Slot}
    (h : normal c prev p = .index a) : a = pixelHash p ∧ cacheRead c a = some p := by
  cases choice_of_normal_eq h with
  | index hit => exact ⟨rfl, hit⟩

/-- R93: a Diff is chosen on a miss and carries the differences from `prev`. -/
theorem delta_of_normal_eq_diff {c : Cache} {prev : Option Pixel} {p : Pixel} {dR dG dB : Int}
    (h : normal c prev p = .diffShort dR dG dB ∨ normal c prev p = .diffLong dR dG dB) :
    ∃ q, prev = some q ∧ cacheRead c (pixelHash p) ≠ some p ∧ delta p q = ⟨dR, dG, dB⟩ := by
  rcases h with h | h
  · cases choice_of_normal_eq h with
    | diffShort q hprev miss => exact ⟨q, hprev, miss, rfl⟩
  · cases choice_of_normal_eq h with
    | diffLong q hprev miss => exact ⟨q, hprev, miss, rfl⟩

/-- R101 item d: a DiffLong does not fit DiffShort. -/
theorem not_short_of_normal_eq_diffLong {c : Cache} {prev : Option Pixel} {p : Pixel} {dR dG dB : Int}
    (h : normal c prev p = .diffLong dR dG dB) : ¬fitsShort ⟨dR, dG, dB⟩ = true := by
  cases choice_of_normal_eq h with
  | diffLong _ _ _ not_short => exact not_short

/-- R97: NORMAL never chooses a Run. -/
theorem normal_ne_run (c : Cache) (prev : Option Pixel) (p : Pixel) (n : Nat) : normal c prev p ≠ .run n :=
  fun h => nomatch choice_of_normal_eq h

/-! ## What the choice says of the pixel (R101) -/

/-- Settles O21: the deltas are the differences, and these add back. -/
theorem diffTagsRecoverThePixel : Obligations.DiffTagsRecoverThePixel := by
  intro c q p dR dG dB h
  obtain ⟨q', hq, -, hd⟩ := delta_of_normal_eq_diff h
  cases hq
  simpa only [hd] using addDeltas_delta p q

/-- R93: no difference added gives the pixel itself. -/
theorem addDeltas_zero (q : Pixel) : addDeltas q 0 0 0 = some q := by
  simpa [delta, channelDelta] using addDeltas_delta q q

/-- R101 item c: where the cache holds `prev`, a pixel equal to `prev` is a hit and so no Diff. -/
theorem prev_ne_of_normal_eq_diff {c : Cache} {prev : Option Pixel}
    (hcached : ∀ q, prev = some q → cacheRead c (pixelHash q) = some q) {p : Pixel} {dR dG dB : Int}
    (h : normal c prev p = .diffShort dR dG dB ∨ normal c prev p = .diffLong dR dG dB) : prev ≠ some p := by
  obtain ⟨-, -, hmiss, -⟩ := delta_of_normal_eq_diff h
  exact fun hp => hmiss (hcached p hp)

/-- R101 item c: where the cache holds `prev`, a DiffShort has a delta that is not 0. -/
theorem normal_ne_diffShort_zero {c : Cache} {prev : Option Pixel}
    (hcached : ∀ q, prev = some q → cacheRead c (pixelHash q) = some q) (p : Pixel) :
    normal c prev p ≠ .diffShort 0 0 0 := by
  intro h
  obtain ⟨q, rfl, -, -⟩ := delta_of_normal_eq_diff (.inl h)
  have hqp : some q = some p := (addDeltas_zero q).symm.trans (diffTagsRecoverThePixel c q p 0 0 0 (.inl h))
  exact prev_ne_of_normal_eq_diff hcached (.inl h) hqp

/-- Settles O22: the invariant says that the cache holds `prev`; the rest is what each choice says. -/
theorem normalPathConsequences : Obligations.NormalPathConsequences := by
  intro s hinv
  exact ⟨fun q hq => normal_of_hit (hinv.prev_cached q hq),
    normal_ne_diffShort_zero hinv.prev_cached,
    fun _ _ _ _ => prev_ne_of_normal_eq_diff hinv.prev_cached,
    fun _ _ _ _ h hshort => not_short_of_normal_eq_diffLong h (fitsShort_iff.2 hshort),
    fun _ _ => read_of_normal_eq_index⟩

/-! ## The first pixel of a run (R99, R100) -/

/-- R129: with nothing pending, a first or a differing pixel takes the normal path at once. -/
theorem acceptPix_of_runAcc_zero {s : State} {p : Pixel} (he : s.err = false) (hacc : s.runAcc = 0)
    (hp : s.prev ≠ some p) : acceptPix p s = selectPixel p s := by
  simp [acceptPix, isRepeat, hp, flush_of_zero hacc, unlessFaulted_of_live he]

/-- R72: all 64 slots after an INSERT. -/
theorem cacheRead_cacheInsert (c : Cache) (p : Pixel) (a : Slot) :
    cacheRead (cacheInsert c p) a = if a = pixelHash p then some p else cacheRead c a := by
  split
  · next ha => rw [ha, cacheRead_cacheInsert_same]
  · next ha => exact cacheRead_cacheInsert_other (Ne.symm ha)

/-- Settles O36: the normal path on an empty cache with no predecessor. -/
theorem firstPixelOfARunIsLiteral : Obligations.FirstPixelOfARunIsLiteral := by
  rintro s p ⟨hcache, hprev, hacc, hpos, herr⟩
  have hexec : exec (.pix p) s = .next (selectPixel p s) := by
    rw [exec_eq, whileLive_of_live herr, effect, acceptPix_of_runAcc_zero herr hacc (by simp [hprev])]
  have hlit : normal s.cache s.prev p = .literal p := by
    rw [normal_of_miss (by simp [hcache, cacheRead]), hprev]
    rfl
  refine ⟨_, hexec, ?_⟩
  rw [selectPixel_eq p herr, hlit, hcache]
  exact ⟨rfl, rfl, by simp [hpos], cacheRead_cacheInsert [] p⟩

end Sys2Proof.Machine
end

section
/-! SUPPORT. R85, R100, R101: the Tags of an input are well-formed and in order, an induction over the turns of the
scan. -/

namespace Sys2Proof.Machine

/-- R126: what every turn of the loop keeps holds at its end. -/
theorem scanLoop_induction {P : Scan → Prop} {seq : List Pixel}
    (hstep : ∀ s, s.pos < seq.length → P s → P (scanStep seq s)) (turns : Nat) {s : Scan} (h : P s) :
    P (scanLoop seq turns s) := by
  induction turns generalizing s with
  | zero => exact h
  | succ turns ih =>
    by_cases hlt : s.pos < seq.length
    · rw [scanLoop_succ_of_lt hlt]
      exact ih (hstep s hlt h)
    · rw [scanLoop_of_le (Nat.not_lt.1 hlt)]
      exact h

/-- R127: before the end of the input a step consumes two or more repeats of `prev` under a Run, or one pixel on the
normal path. -/
theorem scanStep_cases {seq : List Pixel} {s : Scan} (hlt : s.pos < seq.length) :
    (∃ q, s.prev = some q ∧ 2 ≤ runLen q seq s.pos ∧
      scanStep seq s =
        { s with
          cache := cacheInsert s.cache q
          pos := s.pos + runLen q seq s.pos
          tags := s.tags ++ [.run (runLen q seq s.pos)] }) ∨
    ∃ p, seq[s.pos]? = some p ∧ scanStep seq s =
      { cache := cacheInsert s.cache p, prev := some p, pos := s.pos + 1,
        tags := s.tags ++ [normal s.cache s.prev p] } := by
  obtain ⟨p, hp⟩ : ∃ p, seq[s.pos]? = some p := ⟨_, List.getElem?_eq_getElem hlt⟩
  have hpix := scanPixel_of_getElem? hp
  cases hq : s.prev with
  | none => exact .inr ⟨p, hp, by simpa [scanStep, hq] using hpix⟩
  | some q =>
    by_cases h2 : 2 ≤ runLen q seq s.pos
    · exact .inl ⟨q, rfl, h2, by simp [scanStep, hq, qualifies, h2]⟩
    · exact .inr ⟨p, hp, by simpa [scanStep, hq, qualifies, h2] using hpix⟩

/-- R80: where repeats of `q` come, the next pixel is `q`. -/
theorem getElem?_of_runLen_pos {q : Pixel} {seq : List Pixel} {i : Nat} (h : 0 < runLen q seq i) :
    seq[i]? = some q := by
  rw [← Nat.add_zero i, ← List.getElem?_drop]
  exact getElem?_of_lt_countRepeats h

/-- R85 items d and e: a Run may follow a Run of the cap only. -/
def MayFollow (t u : Tag) : Prop := ∀ m n, t = .run m → u = .run n → m = 62

/-- R85, R101 item a: what the Tags of the scan so far satisfy. A last Run below the cap has stopped before the end of
the input or before a pixel that differs from `prev`, so that no Run comes next. -/
structure ScanOrdered (seq : List Pixel) (s : Scan) : Prop where
  tags_wf : ∀ t ∈ s.tags, t.wf = true
  chain : s.tags.IsChain MayFollow
  last_run : ∀ m, s.tags.getLast? = some (.run m) → m = 62 ∨ seq[s.pos]? ≠ s.prev

/-- R126: the scan starts with no Tags. -/
theorem scanOrdered_start (seq : List Pixel) : ScanOrdered seq scanStart where
  tags_wf := by simp [scanStart]
  chain := .nil
  last_run := by simp [scanStart]

/-- A Tag appended that is well-formed and may follow the last keeps the first two clauses; the third is of the state
it leaves. -/
theorem ScanOrdered.append {seq : List Pixel} {s s' : Scan} {u : Tag} (h : ScanOrdered seq s)
    (htags : s'.tags = s.tags ++ [u]) (hwf : u.wf = true)
    (hfollow : ∀ t, s.tags.getLast? = some t → MayFollow t u)
    (hlast : ∀ n, u = .run n → n = 62 ∨ seq[s'.pos]? ≠ s'.prev) :
    ScanOrdered seq s' where
  tags_wf := by
    rw [htags]
    simpa [or_imp, forall_and, hwf] using h.tags_wf
  chain := by
    rw [htags]
    refine List.isChain_append.2 ⟨h.chain, .singleton u, ?_⟩
    rintro x hx _ ⟨⟩
    exact hfollow x hx
  last_run m hm := hlast m (by simpa [htags] using hm)

/-- R85, R127: a step keeps the order. A Run comes only where the pixel at `pos` equals `prev`. -/
theorem ScanOrdered.step {seq : List Pixel} {s : Scan} (h : ScanOrdered seq s) (hlt : s.pos < seq.length) :
    ScanOrdered seq (scanStep seq s) := by
  rcases scanStep_cases hlt with ⟨q, hq, h2, e⟩ | ⟨p, -, e⟩ <;> rw [e]
  · have hrepeat : seq[s.pos]? = s.prev := (getElem?_of_runLen_pos (Nat.two_pos.trans_le h2)).trans hq.symm
    have hcap : runLen q seq s.pos ≤ 62 := countRepeats_le ..
    refine h.append rfl (by simp [Tag.wf, h2, hcap]) ?_ (fun n hn => ?_)
    · rintro _ hm m _ rfl -
      exact (h.last_run m hm).resolve_right (not_not_intro hrepeat)
    · cases hn
      have hstop := countRepeats_stops q config.runMax (seq.drop s.pos)
      rw [List.getElem?_drop, ← hq] at hstop
      exact hstop
  · exact h.append rfl (normal_wf ..) (fun _ _ _ n _ hn => absurd hn (normal_ne_run _ _ _ n))
      (fun n hn => absurd hn (normal_ne_run _ _ _ n))

/-- R127: a step adds Tags behind those there are. -/
theorem scanStep_tags_prefix {seq : List Pixel} {s : Scan} (hlt : s.pos < seq.length) :
    s.tags <+: (scanStep seq s).tags := by
  rcases scanStep_cases hlt with ⟨q, -, -, e⟩ | ⟨p, -, e⟩ <;> rw [e] <;> exact List.prefix_append ..

/-- R100: the Tags of an input begin with the Literal of its first pixel. -/
theorem literal_prefix_compress (p : Pixel) (rest : List Pixel) : [.literal p] <+: compress (p :: rest) := by
  rw [compress, List.length_cons, scanLoop_succ_of_lt (by simp [scanStart]), scanStep_scanStart]
  exact scanLoop_induction (P := fun s => [Tag.literal p] <+: s.tags)
    (fun _ hlt h => h.trans (scanStep_tags_prefix hlt)) _ List.prefix_rfl

/-- Settles O55: the order holds at the start of the scan and every turn keeps it. -/
theorem compressedTagsAreWellFormedAndOrdered : Obligations.CompressedTagsAreWellFormedAndOrdered := by
  intro seq
  have h : ScanOrdered seq (scanLoop seq seq.length scanStart) :=
    scanLoop_induction (fun _ hlt h => h.step hlt) _ (scanOrdered_start seq)
  refine ⟨h.tags_wf, ?_, fun i m n hm hn => ?_⟩
  · rintro p rest rfl
    obtain ⟨ts, hts⟩ := literal_prefix_compress p rest
    rw [← hts]
    rfl
  · obtain ⟨hi, hn⟩ := List.getElem?_eq_some_iff.1 hn
    obtain ⟨hi', hm⟩ := List.getElem?_eq_some_iff.1 hm
    exact List.isChain_iff_getElem.1 h.chain i hi m n hm hn

end Sys2Proof.Machine
end

section
/-! SUPPORT. R110 to R117: PACK. Its group for each Tag and the reading back, the numbers of the bytes, the causes, and
the rows of the Tags that the packer is handed. -/

namespace Sys2Proof.Machine

/-! ## PACK and the groups (R110) -/

/-- R110: the bytes of a Tag are as many as its group has. -/
theorem length_of_pack {t : Tag} {bs : List Byte} (h : pack t = .ok bs) : bs.length = (encodeGroup t).length :=
  congrArg List.length (pack_eq_ok_iff.1 h).2

/-- R110: the variant and payload are read back from the bytes. -/
theorem readGroup_of_pack {t : Tag} {bs : List Byte} (h : pack t = .ok bs) : readGroup bs = .ok (t, []) := by
  obtain ⟨hwf, rfl⟩ := pack_eq_ok_iff.1 h
  exact readGroup_eq_ok_iff.2 ⟨hwf, (List.append_nil _).symm⟩

/-- R110: the same bytes are never those of two Tags. -/
theorem eq_of_pack_eq_ok {t u : Tag} {bs : List Byte} (ht : pack t = .ok bs) (hu : pack u = .ok bs) : t = u := by
  have h := (readGroup_of_pack ht).symm.trans (readGroup_of_pack hu)
  cases h
  rfl

/-- R116: a Tag that is not well-formed has a cause. -/
theorem exists_pack_eq_error {t : Tag} (h : t.wf = false) : ∃ c, pack t = .error c := by
  have hcause : tagCause t ≠ none := fun hc => by simp [tagCause_eq_none_iff.1 hc] at h
  obtain ⟨c, hc⟩ := Option.ne_none_iff_exists'.1 hcause
  exact ⟨c, pack_of_cause hc⟩

/-- Settles O4: PACK answers the group (`pack_eq_ok_iff`), which reads back as the Tag, so that no two Tags share it. -/
theorem packMapsTagsToTheirGroups : Obligations.PackMapsTagsToTheirGroups := by
  have hpack : ∀ t : Tag, t.wf = true → pack t = .ok (encodeGroup t) := fun _ hwf => pack_eq_ok_iff.2 ⟨hwf, rfl⟩
  exact ⟨hpack,
    fun _ _ => length_of_pack, fun _ _ => length_of_pack, fun _ _ => length_of_pack,
    fun _ _ _ _ => length_of_pack, fun _ _ _ _ => length_of_pack,
    fun t _ ht _ heq => eq_of_pack_eq_ok (hpack t ht) (heq ▸ hpack t ht),
    fun _ _ => readGroup_of_pack,
    fun _ => exists_pack_eq_error⟩

/-! ## The bytes as numbers (R112 to R115) -/

/-- R114, R115: parts laid side by side do not overlap, so the number is their sum, each part in its place. -/
theorem toNat_append_eq_add {n m : Nat} (x : BitVec n) (y : BitVec m) : (x ++ y).toNat = x.toNat * 2 ^ m + y.toNat := by
  rw [BitVec.toNat_append, ← Nat.shiftLeft_add_eq_or_of_lt y.isLt, Nat.shiftLeft_eq]

/-- R56: the field of a delta in its range is the delta minus the minimum. -/
theorem toNat_biasField {w : Nat} {lo d : Int} (hlo : lo ≤ d) (hhi : d < lo + 2 ^ w) :
    ((biasField w lo d).toNat : Int) = d - lo := by
  obtain ⟨x, rfl⟩ := exists_unbias_eq hlo hhi
  rw [biasField_unbias, unbias]
  omega

/-- R114: the field of a DiffShort delta as a number. -/
theorem toNat_shortField {d : Int} (h : -2 ≤ d ∧ d ≤ 1) : ((shortField d).toNat : Int) = d + 2 :=
  toNat_biasField h.1 (show d < -2 + 2 ^ 2 by omega)

/-- R115: the field of a DiffLong delta as a number. -/
theorem toNat_longField {d : Int} (h : -8 ≤ d ∧ d ≤ 7) : ((longField d).toNat : Int) = d + 8 :=
  toNat_biasField h.1 (show d < -8 + 2 ^ 4 by omega)

/-- R112, R113: the byte of an identifier of 2 bits above a number of 6. -/
theorem toNat_append_ofNat (id : BitVec 2) {n : Nat} (h : n < 64) :
    (id ++ BitVec.ofNat config.slotBits n).toNat = id.toNat * 64 + n := by
  rw [toNat_append_eq_add, BitVec.toNat_ofNat, Nat.mod_eq_of_lt (show n < 2 ^ 6 from h)]
  rfl

/-- R114: the byte of a DiffShort, each field in its own two bits. -/
theorem toNat_diffShort_byte (x y z : BitVec config.dsBits) :
    (config.idDiffShort ++ x ++ y ++ z).toNat = 0xC0 + 16 * x.toNat + 4 * y.toNat + z.toNat := by
  have hid : config.idDiffShort.toNat = 3 := rfl
  simp only [toNat_append_eq_add, hid, config_dsBits]
  omega

/-- R115: the first byte of a DiffLong. -/
theorem toNat_diffLong_byte0 (x : BitVec config.dlBits) : (config.idDiffLong ++ x).toNat = 0x30 + x.toNat :=
  toNat_append_eq_add config.idDiffLong x

/-- R115: the second byte of a DiffLong. -/
theorem toNat_diffLong_byte1 (y z : BitVec config.dlBits) : (y ++ z).toNat = 16 * y.toNat + z.toNat := by
  rw [toNat_append_eq_add, Nat.mul_comm]
  rfl

/-! ## PACK of each variant (R111 to R115) -/

/-- R112: 0x40 and the length. -/
theorem exists_pack_run {n : Nat} (h : 2 ≤ n ∧ n ≤ 62) : ∃ b : Byte, b.toNat = 0x40 + n ∧ pack (.run n) = .ok [b] :=
  ⟨config.idRun ++ BitVec.ofNat config.slotBits n, toNat_append_ofNat config.idRun (by omega),
    pack_eq_ok_iff.2 ⟨by simpa [Tag.wf] using h, rfl⟩⟩

/-- R112, R116: a length outside [2,62]. -/
theorem pack_run_of_not_range {n : Nat} (h : ¬(2 ≤ n ∧ n ≤ 62)) : pack (.run n) = .error .invalidRunLength :=
  pack_of_cause (if_neg (by simpa using h))

/-- R113: 0x80 and the slot. -/
theorem exists_pack_index (a : Slot) : ∃ b : Byte, b.toNat = 0x80 + a.val ∧ pack (.index a) = .ok [b] :=
  ⟨config.idIndex ++ BitVec.ofNat config.slotBits a.val, toNat_append_ofNat config.idIndex a.isLt,
    pack_eq_ok_iff.2 ⟨rfl, rfl⟩⟩

/-- R114: 0xC0 and the three fields, each in its own two bits. -/
theorem exists_pack_diffShort {dR dG dB : Int} (h : (-2 ≤ dR ∧ dR ≤ 1) ∧ (-2 ≤ dG ∧ dG ≤ 1) ∧ (-2 ≤ dB ∧ dB ≤ 1)) :
    ∃ b : Byte, (b.toNat : Int) = 0xC0 + 16 * (dR + 2) + 4 * (dG + 2) + (dB + 2) ∧
      pack (.diffShort dR dG dB) = .ok [b] := by
  obtain ⟨hR, hG, hB⟩ := h
  refine ⟨config.idDiffShort ++ shortField dR ++ shortField dG ++ shortField dB, ?_,
    pack_eq_ok_iff.2 ⟨by simp [Tag.wf, hR, hG, hB], rfl⟩⟩
  rw [toNat_diffShort_byte, ← toNat_shortField hR, ← toNat_shortField hG, ← toNat_shortField hB]
  rfl

/-- R114, R116: a delta outside [-2,1]. -/
theorem pack_diffShort_of_not_range {dR dG dB : Int}
    (h : ¬((-2 ≤ dR ∧ dR ≤ 1) ∧ (-2 ≤ dG ∧ dG ≤ 1) ∧ (-2 ≤ dB ∧ dB ≤ 1))) :
    pack (.diffShort dR dG dB) = .error .invalidDeltaRange :=
  pack_of_cause (if_neg (mt fitsShort_iff.1 h))

/-- R115: 0x30 and the high field, then the two others in one byte. -/
theorem exists_pack_diffLong {dR dG dB : Int} (h : (-8 ≤ dR ∧ dR ≤ 7) ∧ (-8 ≤ dG ∧ dG ≤ 7) ∧ (-8 ≤ dB ∧ dB ≤ 7)) :
    ∃ b0 b1 : Byte, (b0.toNat : Int) = 0x30 + (dR + 8) ∧ (b1.toNat : Int) = 16 * (dG + 8) + (dB + 8) ∧
      pack (.diffLong dR dG dB) = .ok [b0, b1] := by
  obtain ⟨hR, hG, hB⟩ := h
  refine ⟨config.idDiffLong ++ longField dR, longField dG ++ longField dB, ?_, ?_,
    pack_eq_ok_iff.2 ⟨by simp [Tag.wf, hR, hG, hB], rfl⟩⟩
  · rw [toNat_diffLong_byte0, ← toNat_longField hR]
    rfl
  · rw [toNat_diffLong_byte1, ← toNat_longField hG, ← toNat_longField hB]
    rfl

/-- R115, R116: a delta outside [-8,7]. -/
theorem pack_diffLong_of_not_range {dR dG dB : Int}
    (h : ¬((-8 ≤ dR ∧ dR ≤ 7) ∧ (-8 ≤ dG ∧ dG ≤ 7) ∧ (-8 ≤ dB ∧ dB ≤ 7))) :
    pack (.diffLong dR dG dB) = .error .invalidDeltaRange :=
  pack_of_cause (if_neg (mt fitsLong_iff.1 h))

/-- R111: the identifier and the channels. -/
theorem pack_literal (p : Pixel) : pack (.literal p) = .ok [0x0F#8, p.r, p.g, p.b] := pack_of_wf rfl

/-- Settles O5: each variant's bytes, and its cause. -/
theorem packBytesOfEachVariant : Obligations.PackBytesOfEachVariant :=
  ⟨pack_literal, fun _ h2 h62 => exists_pack_run ⟨h2, h62⟩, fun _ h => pack_run_of_not_range (by omega),
    exists_pack_index, fun _ _ _ => exists_pack_diffShort, fun _ _ _ => pack_diffShort_of_not_range,
    fun _ _ _ => exists_pack_diffLong, fun _ _ _ => pack_diffLong_of_not_range⟩

/-! ## The rows of the Tags (R117, R148) -/

/-- R117: on a live machine the row of a Tag that PACK has bytes for appends the Tag and its bytes. -/
theorem exec_tag_of_pack_eq_ok {s : State} (he : s.err = false) {t : Tag} {bs : List Byte} (h : pack t = .ok bs) :
    exec t.toInstr s = .next
      { s with
        tags := s.tags ++ [.tag t]
        out := s.out ++ bs.map .byte
        pending := s.pending ++ bs.map .byte } := by
  rw [exec_eq, whileLive_of_live he, effect_tag]
  simp only [emitTag, h, emitBytes]

/-- R116, R148: the row of any other Tag takes its cause. -/
theorem exec_tag_of_pack_eq_error {s : State} (he : s.err = false) {t : Tag} {c : Cause} (h : pack t = .error c) :
    exec t.toInstr s = .next (raise c s) := by
  rw [exec_eq, whileLive_of_live he, effect_tag]
  simp only [emitTag, h]

/-- Settles O23: the row of a Literal, with the bytes of `pack_literal`. -/
theorem literalRowPacksFourBytes : Obligations.LiteralRowPacksFourBytes :=
  fun _ p he => exec_tag_of_pack_eq_ok he (pack_literal p)

/-- Settles O24: the row of a Run, by its length. -/
theorem runRowPacksItsCountOrFaults : Obligations.RunRowPacksItsCountOrFaults := by
  refine fun s n he => ⟨fun h => ?_, fun h => exec_tag_of_pack_eq_error he (pack_run_of_not_range h)⟩
  obtain ⟨b, hb, hpack⟩ := exists_pack_run h
  exact ⟨b, hb, exec_tag_of_pack_eq_ok he hpack⟩

/-- Settles O25: the row of an Index. -/
theorem indexRowPacksItsSlot : Obligations.IndexRowPacksItsSlot := by
  intro s a he
  obtain ⟨b, hb, hpack⟩ := exists_pack_index a
  exact ⟨b, hb, exec_tag_of_pack_eq_ok he hpack⟩

/-- Settles O26: the row of a DiffShort, by its deltas. -/
theorem diffShortRowPacksItsDeltasOrFaults : Obligations.DiffShortRowPacksItsDeltasOrFaults := by
  refine fun s dR dG dB he => ⟨fun h => ?_, fun h => exec_tag_of_pack_eq_error he (pack_diffShort_of_not_range h)⟩
  obtain ⟨b, hb, hpack⟩ := exists_pack_diffShort h
  exact ⟨b, hb, exec_tag_of_pack_eq_ok he hpack⟩

/-- Settles O27: the row of a DiffLong, by its deltas. -/
theorem diffLongRowPacksItsDeltasOrFaults : Obligations.DiffLongRowPacksItsDeltasOrFaults := by
  refine fun s dR dG dB he => ⟨fun h => ?_, fun h => exec_tag_of_pack_eq_error he (pack_diffLong_of_not_range h)⟩
  obtain ⟨b0, b1, hb0, hb1, hpack⟩ := exists_pack_diffLong h
  exact ⟨b0, b1, hb0, hb1, exec_tag_of_pack_eq_ok he hpack⟩

end Sys2Proof.Machine
end

section
/-! SUPPORT. R129, R130: the token rows as equations of the whole state. FLUSH and the normal path are emissions of Tags
on a state whose registers have moved on; each row is assembled from these. -/

namespace Sys2Proof.Machine

/-! ## Emission of well-formed Tags (R117) -/

/-- R117: Tags emitted one after another, where each is well-formed. -/
def emitTags (ts : List Tag) (s : State) : State :=
  { s with
    tags := s.tags ++ ts.map .tag
    out := s.out ++ (packAll ts).map .byte
    pending := s.pending ++ (packAll ts).map .byte }

@[simp] theorem emitTags_cache (ts : List Tag) (s : State) : (emitTags ts s).cache = s.cache := rfl
@[simp] theorem emitTags_prev (ts : List Tag) (s : State) : (emitTags ts s).prev = s.prev := rfl
@[simp] theorem emitTags_runAcc (ts : List Tag) (s : State) : (emitTags ts s).runAcc = s.runAcc := rfl
@[simp] theorem emitTags_pos (ts : List Tag) (s : State) : (emitTags ts s).pos = s.pos := rfl
@[simp] theorem emitTags_err (ts : List Tag) (s : State) : (emitTags ts s).err = s.err := rfl
@[simp] theorem emitTags_tags (ts : List Tag) (s : State) : (emitTags ts s).tags = s.tags ++ ts.map .tag := rfl
@[simp] theorem emitTags_out (ts : List Tag) (s : State) :
    (emitTags ts s).out = s.out ++ (packAll ts).map .byte := rfl
@[simp] theorem emitTags_edges (ts : List Tag) (s : State) : (emitTags ts s).edges = s.edges := rfl

/-- R117: one well-formed Tag. -/
theorem emitTag_eq_emitTags {t : Tag} (h : t.wf = true) (s : State) : emitTag t s = emitTags [t] s := by
  simp [emitTag_of_wf h, emitTags, packAll]

/-- R117: some Tags and then others, the registers moved on in between. -/
theorem emitTags_emitTags (ts us : List Tag) (s : State) (c : Cache) (prev : Option Pixel) (acc pos : Nat) :
    emitTags us { emitTags ts s with cache := c, prev := prev, runAcc := acc, pos := pos } =
      emitTags (ts ++ us) { s with cache := c, prev := prev, runAcc := acc, pos := pos } := by
  simp [emitTags, packAll_append]

/-! ## The parts of a token (R83, R97, R99, R129) -/

/-- R97, R99: the normal path. -/
theorem selectPixel_eq_emitTags (p : Pixel) {s : State} (he : s.err = false) :
    selectPixel p s =
      emitTags [normal s.cache s.prev p]
        { s with cache := cacheInsert s.cache p, prev := some p, pos := s.pos + 1 } := by
  simp [selectPixel_eq p he, emitTags, packAll]

/-- R83, R129: FLUSH of 1 to 62 repeats. Of a single repeat the cache has to hold the pixel, or its Tag is another. -/
theorem flush_of_pending {s : State} (he : s.err = false) (h0 : 0 < s.runAcc) (hn : s.runAcc ≤ 62)
    (hread : s.runAcc = 1 → cacheRead s.cache (pixelHash (prevPixel s)) = some (prevPixel s)) :
    flush s =
      emitTags [closingTag s.runAcc (prevPixel s)]
        { s with cache := cacheInsert s.cache (prevPixel s), runAcc := 0, pos := s.pos + s.runAcc } := by
  rcases flush_cases s with ⟨hz, -⟩ | ⟨h1, e⟩ | ⟨h2, e⟩
  · exact absurd hz h0.ne'
  · rw [e, selectRepeat_eq (by exact he)]
    have hidx : normal s.cache s.prev (prevPixel s) = .index (pixelHash (prevPixel s)) := normal_of_hit (hread h1)
    simp only [h1, closingTag, if_true, ← hidx]
    simp [emitTags, packAll, prevPixel]
  · have hne : s.runAcc ≠ 1 := by omega
    have hwf : (Tag.run s.runAcc).wf = true := by simp [Tag.wf]; omega
    rw [e, selectRun_eq hwf (by exact he)]
    simp [emitTags, packAll, prevPixel, closingTag, hne]

/-! ## The rows of the tokens (R129, R130) -/

section
variable {s : State}

/-- R129: a live machine accepts a pixel. -/
theorem exec_pix (he : s.err = false) (p : Pixel) : exec (.pix p) s = .next (acceptPix p s) := by
  rw [exec_eq, whileLive_of_live he, effect]

/-- R130: a live machine accepts an Eos. -/
theorem exec_eos (he : s.err = false) : exec .eos s = .next (acceptEos s) := by
  rw [exec_eq, whileLive_of_live he, effect]

/-- R129: a repeat. -/
theorem acceptPix_of_repeat {p : Pixel} (hp : s.prev = some p) : acceptPix p s = acceptRepeat s := by
  simp [acceptPix, isRepeat, hp]

/-- R129: a repeat below the cap. -/
theorem acceptRepeat_of_lt (h : s.runAcc < 61) : acceptRepeat s = { s with runAcc := s.runAcc + 1 } := by
  have hcap : s.runAcc + 1 ≠ 62 := by omega
  simp [acceptRepeat, atCap, hcap]

/-- R82, R129: the 62nd repeat closes the run. -/
theorem acceptRepeat_of_cap (h : s.runAcc = 61) : acceptRepeat s = flush { s with runAcc := 62 } := by
  simp [acceptRepeat, atCap, h]

/-- R82, R129: the 62nd repeat emits the Run of the cap. -/
theorem acceptPix_of_cap {p : Pixel} (he : s.err = false) (hp : s.prev = some p) (h : s.runAcc = 61) :
    acceptPix p s =
      emitTags [.run 62] { s with cache := cacheInsert s.cache p, runAcc := 0, pos := s.pos + 62 } := by
  rw [acceptPix_of_repeat hp, acceptRepeat_of_cap h,
    flush_of_pending (by exact he) (Nat.zero_lt_succ 61) le_rfl (by simp), prevPixel_of_some (by exact hp)]
  rfl

/-- R129: a first or a differing pixel. -/
theorem acceptPix_of_ne {p : Pixel} (hp : s.prev ≠ some p) (he : (flush s).err = false) :
    acceptPix p s = selectPixel p (flush s) := by
  simp [acceptPix, isRepeat, hp, unlessFaulted_of_live he]

/-- R129: a differing pixel after 1 to 62 repeats of `q`. -/
theorem acceptPix_of_pending {p q : Pixel} (he : s.err = false) (hq : s.prev = some q) (hne : q ≠ p)
    (h0 : 0 < s.runAcc) (hn : s.runAcc ≤ 62) (hread : s.runAcc = 1 → cacheRead s.cache (pixelHash q) = some q) :
    acceptPix p s =
      emitTags [closingTag s.runAcc q, normal (cacheInsert s.cache q) (some q) p]
        { s with
          cache := cacheInsert (cacheInsert s.cache q) p
          prev := some p
          runAcc := 0
          pos := s.pos + s.runAcc + 1 } := by
  have hflush := flush_of_pending he h0 hn (by simpa only [prevPixel_of_some hq] using hread)
  rw [prevPixel_of_some hq] at hflush
  have hlive : (flush s).err = false := by rw [hflush]; exact he
  rw [acceptPix_of_ne (by simpa [hq] using hne) hlive, hflush, selectPixel_eq_emitTags p (by exact he),
    emitTags_emitTags]
  simp [hq]

/-- R130: Eos with nothing pending. -/
theorem acceptEos_of_zero (he : s.err = false) (h0 : s.runAcc = 0) : acceptEos s = clearRun (emitEos s) := by
  simp [acceptEos, flush_of_zero h0, unlessFaulted_of_live he]

/-- R130: Eos after 1 to 62 repeats. -/
theorem acceptEos_of_pending (he : s.err = false) (h0 : 0 < s.runAcc) (hn : s.runAcc ≤ 62)
    (hread : s.runAcc = 1 → cacheRead s.cache (pixelHash (prevPixel s)) = some (prevPixel s)) :
    acceptEos s = clearRun (emitEos (emitTags [closingTag s.runAcc (prevPixel s)] s)) := by
  rw [acceptEos, flush_of_pending he h0 hn hread, unlessFaulted_of_live (by exact he)]
  rfl

end

/-! ## The bytes of a closing Tag (R112, R113) -/

/-- R117: the bytes that PACK answers. -/
theorem packBytes_of_pack {t : Tag} {bs : List Byte} (h : pack t = .ok bs) : packBytes t = bs := by
  rw [pack_of_wf (pack_eq_ok_iff.1 h).1] at h
  exact Except.ok.inj h

/-- R112: the byte of a Run as a number. -/
theorem exists_packBytes_run {n : Nat} (h : 2 ≤ n ∧ n ≤ 62) :
    ∃ b : Byte, b.toNat = 0x40 + n ∧ packBytes (.run n) = [b] :=
  (exists_pack_run h).imp fun _ ⟨hb, hpack⟩ => ⟨hb, packBytes_of_pack hpack⟩

/-- R113: the byte of an Index as a number. -/
theorem exists_packBytes_index (a : Slot) : ∃ b : Byte, b.toNat = 0x80 + a.val ∧ packBytes (.index a) = [b] :=
  (exists_pack_index a).imp fun _ ⟨hb, hpack⟩ => ⟨hb, packBytes_of_pack hpack⟩

/-- R91: two repeats or more are closed by a Run. -/
theorem closingTag_of_two_le {n : Nat} (h : 2 ≤ n) (q : Pixel) : closingTag n q = .run n := if_neg (by omega)

/-- R81: a single repeat is closed by an Index. -/
theorem closingTag_one (q : Pixel) : closingTag 1 q = .index (pixelHash q) := rfl

/-! ## The statements about the rows -/

/-- Settles O28: a repeat below the cap. -/
theorem pixRepeatIsCounted : Obligations.PixRepeatIsCounted := by
  intro s p he hp hacc
  rw [exec_pix he, acceptPix_of_repeat hp, acceptRepeat_of_lt hacc]

/-- Settles O29: FLUSH of 62 repeats. -/
theorem pixRepeatAtTheCapEmitsRun62 : Obligations.PixRepeatAtTheCapEmitsRun62 := by
  intro s p he hp hacc
  have hbyte : packBytes (.run 62) = [0x7E#8] := by decide
  rw [exec_pix he, acceptPix_of_cap he hp hacc]
  simp [emitTags, packAll, hbyte]

/-- Settles O30: the normal path alone. -/
theorem pixOnTheNormalPath : Obligations.PixOnTheNormalPath := by
  intro s p he hp hacc
  rw [exec_pix he, acceptPix_of_runAcc_zero he hacc hp, selectPixel_eq p he]

/-- Settles O31: the closing Tag is the Run. -/
theorem pixClosesAPendingRun : Obligations.PixClosesAPendingRun := by
  intro s p q he hq hne h2 hn
  obtain ⟨b, hb, hbytes⟩ := exists_packBytes_run ⟨h2, hn⟩
  refine ⟨b, hb, ?_⟩
  rw [exec_pix he, acceptPix_of_pending he hq hne (by omega) hn (by omega), closingTag_of_two_le h2]
  simp [emitTags, packAll, hbytes]

/-- Settles O32: the closing Tag is the Index. -/
theorem pixAfterASingleRepeat : Obligations.PixAfterASingleRepeat := by
  intro s p q he hq hne h1 hread
  obtain ⟨b, hb, hbytes⟩ := exists_packBytes_index (pixelHash q)
  refine ⟨b, hb, ?_⟩
  rw [exec_pix he, acceptPix_of_pending he hq hne (by omega) (by omega) fun _ => hread, h1, closingTag_one]
  simp [emitTags, packAll, hbytes]

/-- Settles O33: no FLUSH. -/
theorem eosWithNothingPending : Obligations.EosWithNothingPending := by
  intro s he h0
  rw [exec_eos he, acceptEos_of_zero he h0]
  simp [clearRun, emitEos, cacheClear, h0]

/-- Settles O34: the closing Tag is the Run. -/
theorem eosClosesAPendingRun : Obligations.EosClosesAPendingRun := by
  intro s he h2 hn
  obtain ⟨b, hb, hbytes⟩ := exists_packBytes_run ⟨h2, hn⟩
  refine ⟨b, hb, ?_⟩
  rw [exec_eos he, acceptEos_of_pending he (by omega) hn (by omega), closingTag_of_two_le h2]
  simp [clearRun, emitEos, cacheClear, emitTags, packAll, hbytes]

/-- Settles O35: the closing Tag is the Index. -/
theorem eosClosesASingleRepeat : Obligations.EosClosesASingleRepeat := by
  intro s q he h1 hq hread
  obtain ⟨b, hb, hbytes⟩ := exists_packBytes_index (pixelHash q)
  refine ⟨b, hb, ?_⟩
  rw [exec_eos he, acceptEos_of_pending he (by omega) (by omega)
      (by simpa only [prevPixel_of_some hq] using fun _ => hread), prevPixel_of_some hq, h1, closingTag_one]
  simp [clearRun, emitEos, cacheClear, emitTags, packAll, hbytes]

/-! ## What one token can cause (R132) -/

/-- R111 to R115: a group has 1, 2 or 4 bytes. -/
theorem length_packBytes (t : Tag) : (packBytes t).length ∈ [1, 2, 4] := by
  cases t <;> simp [packBytes]

/-- R112, R113: a closing Tag has one byte. -/
theorem exists_packBytes_closingTag (n : Nat) (q : Pixel) : ∃ b, packBytes (closingTag n q) = [b] := by
  unfold closingTag
  split <;> exact ⟨_, rfl⟩

/-- R132: a closing Tag and one Tag more. -/
theorem length_packAll_closingTag (n : Nat) (q : Pixel) (u : Tag) : (packAll [closingTag n q, u]).length ∈ [2, 3, 5] := by
  obtain ⟨b, hb⟩ := exists_packBytes_closingTag n q
  have hlen := length_packBytes u
  simp [packAll, hb] at hlen ⊢
  omega

/-- Settles O37: by what is pending; under the invariant it is of the `prev` that the cache holds. -/
theorem tokenBursts : Obligations.TokenBursts := by
  intro s hinv he
  have hcap : s.runAcc < 62 := hinv.acc_below_cap
  refine ⟨fun p hp => ⟨_, exec_pix he p, ?_⟩, fun p hp => ?_, ⟨_, exec_eos he, ?_⟩⟩
  · rcases Nat.lt_or_ge s.runAcc 61 with hlt | hge
    · rw [acceptPix_of_repeat hp, acceptRepeat_of_lt hlt]
      exact .inl ⟨hlt, rfl, rfl⟩
    · have hacc : s.runAcc = 61 := by omega
      rw [acceptPix_of_cap he hp hacc]
      exact .inr ⟨hacc, rfl, _, rfl⟩
  · rcases Nat.eq_zero_or_pos s.runAcc with h0 | h0
    · refine ⟨_, normal s.cache s.prev p, packBytes (normal s.cache s.prev p), exec_pix he p, ?_⟩
      rw [acceptPix_of_runAcc_zero he h0 hp, selectPixel_eq p he]
      exact ⟨rfl, .inl ⟨h0, rfl, length_packBytes _⟩⟩
    · obtain ⟨q, hq⟩ := Option.ne_none_iff_exists'.1 (hinv.acc_prev h0)
      have hne : q ≠ p := by simpa [hq] using hp
      obtain ⟨u, hu⟩ : ∃ u, normal (cacheInsert s.cache q) (some q) p = u := ⟨_, rfl⟩
      have hnew := length_packAll_closingTag s.runAcc q u
      refine ⟨_, u, packAll [closingTag s.runAcc q, u], exec_pix he p, ?_⟩
      rw [acceptPix_of_pending he hq hne h0 hcap.le fun _ => hinv.prev_cached q hq, hu]
      refine ⟨rfl, .inr ?_⟩
      by_cases h1 : s.runAcc = 1
      · exact .inl ⟨h1, ⟨q, hq, by simp [h1, closingTag_one]⟩, hnew⟩
      · have h2 : 2 ≤ s.runAcc := by omega
        exact .inr ⟨h2, by simp [closingTag_of_two_le h2], hnew⟩
  · rcases Nat.eq_zero_or_pos s.runAcc with h0 | h0
    · rw [acceptEos_of_zero he h0]
      exact .inl ⟨h0, rfl, rfl⟩
    · obtain ⟨q, hq⟩ := Option.ne_none_iff_exists'.1 (hinv.acc_prev h0)
      obtain ⟨b, hb⟩ := exists_packBytes_closingTag s.runAcc q
      have hpq : prevPixel s = q := prevPixel_of_some hq
      rw [acceptEos_of_pending he h0 hcap.le (by simpa only [hpq] using fun _ => hinv.prev_cached q hq), hpq]
      exact .inr ⟨h0, ⟨closingTag s.runAcc q, by simp⟩, b, by simp [packAll, hb]⟩

end Sys2Proof.Machine
end

section
/-! SUPPORT. The kinds of edge (R129, R135, R138) and the words of the monitor (R137). -/

namespace Sys2Proof.Machine

/-! ## One edge -/

/-- R157: an edge without reset at which nothing is presented is its output beat. -/
theorem step_of_nothing_presented {s : State} {e : Edge} {rest : List Edge} (h : s.edges = e :: rest)
    (hr : e.rst = false) (hp : e.presented = none) : step s = .next (deliver e.outReady { s with edges := rest }) := by
  rw [step_of_cons h]
  simp [clockEdge, hr, hp]

/-- R135: an output beat of a live machine that presents an item. -/
theorem deliver_ready {s : State} {x : OutItem} {left : List OutItem} (he : s.err = false)
    (hp : s.pending = x :: left) : deliver true s = { s with pending := left, sent := s.sent ++ [x] } := by
  simp [deliver, outValid, he, hp]

/-- Settles O11: the edge is not a reset and presents the word. -/
theorem stepRunsThePresentedInstruction : Obligations.StepRunsThePresentedInstruction := by
  intro s e rest w i h hr hp hf
  rw [step_of_cons h]
  simp [clockEdge, hr, hp, runPresented, hf]

/-- Settles O14: the output beat of the item at the head. -/
theorem outputBeatTransfersOneItem : Obligations.OutputBeatTransfersOneItem := by
  intro s e rest x left h hr hp hready he hpend
  rw [step_of_nothing_presented h hr hp, hready, deliver_ready (by exact he) (by exact hpend)]

/-- Settles O15: the reset wins over the rest of the edge. -/
theorem resetEdgeGivesTheResetState : Obligations.ResetEdgeGivesTheResetState := by
  intro s e rest h hr
  have hstep : step s = .next (applyReset { s with edges := rest }) := by
    rw [step_of_cons h]
    simp [clockEdge, hr]
  exact ⟨_, hstep, cacheRead_clear, rfl, rfl, rfl, rfl, rfl, rfl, rfl, rfl, rfl, rfl⟩

/-- Settles O48: each word of a well-formed Tag reads as the Tag. -/
theorem monitorShowsTheTagHistory : Obligations.MonitorShowsTheTagHistory := by
  intro s hinv
  have hwf := hinv.tags_wf
  generalize s.tags = items at hwf ⊢
  induction items with
  | nil => rfl
  | cons item items ih =>
    have ih := ih fun t ht => hwf t (List.mem_cons_of_mem _ ht)
    cases item with
    | tag t =>
      have hread : decodeBus (encodeBus t) = some t := tagBusCarriesEveryWellFormedTag t (hwf t List.mem_cons_self)
      exact congr (congrArg List.cons hread) ih
    | runEnd => exact ih

end Sys2Proof.Machine
end

section
/-! SUPPORT. R126, R127: how far the batch scan goes. It reaches the end of the input and does not pass it, its turns do
not matter once they suffice; R128: the number of Tags and bytes. -/

namespace Sys2Proof.Machine

/-! ## The position of the scan (R80, R127) -/

/-- R80: RUNLEN counts pixels of the input only. -/
theorem add_runLen_le {q : Pixel} {seq : List Pixel} {i : Nat} (h : 0 < runLen q seq i) :
    i + runLen q seq i ≤ seq.length := by
  have hlast : (seq.drop i)[runLen q seq i - 1]? = some q :=
    getElem?_of_lt_countRepeats (cap := config.runMax) (Nat.sub_one_lt_of_lt h)
  rw [List.getElem?_drop] at hlast
  have := (List.getElem?_eq_some_iff.1 hlast).1
  omega

/-- R127: a step before the end of the input adds one Tag, for 1 to 62 pixels of the input. -/
theorem scanStep_advances {seq : List Pixel} {s : Scan} (hlt : s.pos < seq.length) :
    s.pos < (scanStep seq s).pos ∧ (scanStep seq s).pos ≤ s.pos + 62 ∧ (scanStep seq s).pos ≤ seq.length ∧
      (scanStep seq s).tags.length = s.tags.length + 1 := by
  rcases scanStep_cases hlt with ⟨q, -, h2, e⟩ | ⟨p, -, e⟩
  · have hend : s.pos + runLen q seq s.pos ≤ seq.length := add_runLen_le (by omega)
    have hcap : runLen q seq s.pos ≤ 62 := countRepeats_le ..
    simp [e]
    omega
  · simp [e]
    omega

/-- R126: the loop ends at the end of the input when it has turns enough. -/
theorem length_le_scanLoop_pos {seq : List Pixel} {turns : Nat} {s : Scan} (h : seq.length ≤ s.pos + turns) :
    seq.length ≤ (scanLoop seq turns s).pos := by
  induction turns generalizing s with
  | zero => exact h
  | succ turns ih =>
    rcases Nat.lt_or_ge s.pos seq.length with hlt | hge
    · obtain ⟨hadv, -⟩ := scanStep_advances hlt
      rw [scanLoop_succ_of_lt hlt]
      exact ih (by omega)
    · rw [scanLoop_of_le hge]
      exact hge

/-- R126: turns beyond those that are enough change nothing. -/
theorem scanLoop_turns {seq : List Pixel} {j k : Nat} {s : Scan} (hj : seq.length ≤ s.pos + j)
    (hk : seq.length ≤ s.pos + k) : scanLoop seq j s = scanLoop seq k s := by
  induction j generalizing k s with
  | zero => rw [scanLoop_of_le hj, scanLoop_of_le hj]
  | succ j ih =>
    rcases Nat.lt_or_ge s.pos seq.length with hlt | hge
    · obtain ⟨k, rfl⟩ : ∃ i, k = i + 1 := ⟨k - 1, by omega⟩
      obtain ⟨hadv, -⟩ := scanStep_advances hlt
      rw [scanLoop_succ_of_lt hlt, scanLoop_succ_of_lt hlt]
      exact ih (by omega) (by omega)
    · rw [scanLoop_of_le hge, scanLoop_of_le hge]

/-! ## Sizes (R128) -/

/-- R128: after the first Tag, of one pixel, each Tag is of 1 to 62 pixels. -/
def ScanSized (seq : List Pixel) (s : Scan) : Prop :=
  s.pos ≤ seq.length ∧ s.tags.length ≤ s.pos ∧ s.pos + 61 ≤ 62 * s.tags.length

/-- R128: a step keeps the bounds. -/
theorem ScanSized.step {seq : List Pixel} {s : Scan} (h : ScanSized seq s) (hlt : s.pos < seq.length) :
    ScanSized seq (scanStep seq s) := by
  obtain ⟨-, hmin, hmax⟩ := h
  obtain ⟨hadv, h62, hend, htags⟩ := scanStep_advances hlt
  refine ⟨hend, ?_, ?_⟩ <;> omega

/-- R128: the bounds on the number of Tags, as multiples. -/
theorem length_compress_bounds {seq : List Pixel} (h : 1 ≤ seq.length) :
    (compress seq).length ≤ seq.length ∧ seq.length + 61 ≤ 62 * (compress seq).length := by
  obtain ⟨p, rest, rfl⟩ := List.exists_cons_of_length_pos h
  obtain ⟨hpos, hmin, hmax⟩ : ScanSized (p :: rest) (scanLoop (p :: rest) (p :: rest).length scanStart) := by
    rw [List.length_cons, scanLoop_succ_of_lt (by simp [scanStart]), scanStep_scanStart]
    exact scanLoop_induction (fun _ hlt h => h.step hlt) _ ⟨by simp, le_rfl, le_rfl⟩
  have hend : (p :: rest).length ≤ (scanLoop (p :: rest) (p :: rest).length scanStart).pos :=
    length_le_scanLoop_pos (by simp [scanStart])
  exact ⟨hmin.trans hpos, by unfold compress; omega⟩

/-- R128: no group has more than 4 bytes. -/
theorem length_packAll_le (ts : List Tag) : (packAll ts).length ≤ 4 * ts.length := by
  induction ts with
  | nil => exact le_rfl
  | cons t ts ih =>
    have hlen := length_packBytes t
    simp [packAll] at ih hlen ⊢
    omega

/-- R128: the first group has 4 bytes and each of the others one or more. -/
theorem length_compress_add_three_le {seq : List Pixel} (h : 1 ≤ seq.length) :
    (compress seq).length + 3 ≤ (compressedBytes seq).length := by
  obtain ⟨p, rest, rfl⟩ := List.exists_cons_of_length_pos h
  obtain ⟨ts, hts⟩ := literal_prefix_compress p rest
  obtain ⟨hwf, -⟩ := compressedTagsAreWellFormedAndOrdered (p :: rest)
  rw [← hts] at hwf
  rw [compressedBytes, ← hts]
  have hrest := length_le_length_packAll fun t ht => hwf t (List.mem_append_right _ ht)
  rw [packAll_append]
  simp [packAll, packBytes] at hrest ⊢
  omega

/-- Settles O57: the bounds on the Tags, and through them on the bytes. -/
theorem compressedSizeBounds : Obligations.CompressedSizeBounds := by
  refine ⟨rfl, rfl, fun seq h => ?_⟩
  obtain ⟨hmin, hmax⟩ := length_compress_bounds h
  have hlow := length_compress_add_three_le h
  have hhigh : (compressedBytes seq).length ≤ 4 * (compress seq).length := length_packAll_le _
  omega

end Sys2Proof.Machine
end

section
/-! SUPPORT. R136: when items are transferred does not matter to what is produced. No operation reads `pending`, `sent`
or `edges`, in any state; each appends the same items to `out` and to `pending` and leaves `sent` and `edges`. -/

namespace Sys2Proof.Machine

/-! ## Operations that do not read the output port -/

/-- The state with other items pending and transferred, and another schedule. -/
def withPort (pending sent : List OutItem) (edges : List Edge) (s : State) : State :=
  { s with pending := pending, sent := sent, edges := edges }

/-- R136: on `s`, `f` emits some items and otherwise does the same whatever is pending, transferred and scheduled. -/
def Emits (f : State → State) (s : State) : Prop :=
  ∃ new, (f s).out = s.out ++ new ∧
    ∀ pending sent edges, f (withPort pending sent edges s) = withPort (pending ++ new) sent edges (f s)

namespace Emits

/-- What emits nothing. -/
theorem of_silent {f : State → State} {s : State} (hout : (f s).out = s.out)
    (hf : ∀ pending sent edges, f (withPort pending sent edges s) = withPort pending sent edges (f s)) : Emits f s :=
  ⟨[], by simpa using hout, by simpa using hf⟩

/-- An operation that is another one on the states in question. -/
theorem congr {f g : State → State} {s : State} (hg : Emits g s)
    (h : ∀ pending sent edges, f (withPort pending sent edges s) = g (withPort pending sent edges s)) : Emits f s := by
  obtain ⟨new, hout, hport⟩ := hg
  have hs : f s = g s := h s.pending s.sent s.edges
  exact ⟨new, hs ▸ hout, fun pending sent edges => by rw [h, hs, hport]⟩

/-- One operation and then another. -/
theorem comp {f g : State → State} {s : State} (hf : Emits f s) (hg : Emits g (f s)) : Emits (fun t => g (f t)) s := by
  obtain ⟨new, hout, hport⟩ := hf
  obtain ⟨new', hout', hport'⟩ := hg
  exact ⟨new ++ new', by simp [hout, hout'], fun pending sent edges => by simp [hport, hport']⟩

/-- R148: what follows an emission is not done when that faulted; the fault does not depend on the port. -/
theorem unlessFaulted {k : State → State} {s : State} (hk : Emits k s) : Emits (unlessFaulted k) s := by
  cases he : s.err with
  | true => exact (of_silent (f := id) rfl fun _ _ _ => rfl).congr fun _ _ _ => unlessFaulted_of_err he
  | false => exact hk.congr fun _ _ _ => unlessFaulted_of_live he

/-- What an operation does is what it does from the port as it stands, so `pending` grows by what `out` grows by. -/
theorem exists_new {f : State → State} {s : State} (h : Emits f s) :
    ∃ new, (f s).out = s.out ++ new ∧ (f s).pending = s.pending ++ new ∧ (f s).sent = s.sent ∧
      (f s).edges = s.edges ∧
      ∀ pending sent edges, f (withPort pending sent edges s) = withPort (pending ++ new) sent edges (f s) := by
  obtain ⟨new, hout, hport⟩ := h
  have hself : f s = withPort (s.pending ++ new) s.sent s.edges (f s) := hport s.pending s.sent s.edges
  exact ⟨new, hout, (congrArg State.pending hself :), (congrArg State.sent hself :), (congrArg State.edges hself :),
    hport⟩

end Emits

/-- R117, R148: an emission, or the fault. -/
theorem emits_emitTag (t : Tag) (s : State) : Emits (emitTag t) s := by
  cases hc : tagCause t with
  | none =>
    have hwf := tagCause_eq_none_iff.1 hc
    refine ⟨(packBytes t).map .byte, by rw [emitTag_of_wf hwf], fun _ _ _ => ?_⟩
    rw [emitTag_of_wf hwf, emitTag_of_wf hwf]
    rfl
  | some c =>
    refine .of_silent (by rw [emitTag_of_cause hc, raise_out]) fun _ _ _ => ?_
    rw [emitTag_of_cause hc, emitTag_of_cause hc]
    rfl

/-- R9: `emit_eos`. -/
theorem emits_emitEos (s : State) : Emits emitEos s := ⟨[.eos], rfl, fun _ _ _ => rfl⟩

/-- R99, R148: an emission and the update of the selector's registers after it. -/
theorem emits_emitTag_update (t : Tag) {k : State → State} {s : State}
    (hout : (k (emitTag t s)).out = (emitTag t s).out)
    (hk : ∀ pending sent edges,
      k (withPort pending sent edges (emitTag t s)) = withPort pending sent edges (k (emitTag t s))) :
    Emits (fun s => unlessFaulted k (emitTag t s)) s :=
  (emits_emitTag t s).comp (Emits.unlessFaulted (.of_silent hout hk))

/-- R91: SELECT_RUN. -/
theorem emits_selectRun (n : Nat) (s : State) : Emits (selectRun n) s :=
  (emits_emitTag_update (.run n) (k := fun t => { t with cache := cacheInsert t.cache (prevPixel s), pos := t.pos + n })
    rfl fun _ _ _ => rfl).congr fun _ _ _ => rfl

/-- R129: the deferred pixel of a single repeat. -/
theorem emits_selectRepeat (s : State) : Emits selectRepeat s :=
  (emits_emitTag_update (normal s.cache s.prev (prevPixel s))
    (k := fun t => { t with cache := cacheInsert t.cache (prevPixel s), pos := t.pos + 1 })
    rfl fun _ _ _ => rfl).congr fun _ _ _ => rfl

/-- R97, R99: the normal path. -/
theorem emits_selectPixel (p : Pixel) (s : State) : Emits (selectPixel p) s :=
  (emits_emitTag_update (normal s.cache s.prev p) rfl fun _ _ _ => rfl).congr fun _ _ _ => rfl

/-- R13: `run_acc` takes a value that depends on its own value alone. -/
theorem emits_setRunAcc (f : Nat → Nat) (s : State) : Emits (fun t => { t with runAcc := f t.runAcc }) s :=
  .of_silent rfl fun _ _ _ => rfl

/-- R129: FLUSH, by what is pending. -/
theorem emits_flush (s : State) : Emits flush s := by
  have hclear := emits_setRunAcc (fun _ => 0) s
  by_cases h2 : qualifies s.runAcc = true
  · exact (hclear.comp (emits_selectRun s.runAcc _)).congr fun _ _ _ => if_pos h2
  · by_cases h1 : s.runAcc = 1
    · exact (hclear.comp (emits_selectRepeat _)).congr fun _ _ _ => (if_neg h2).trans (if_pos h1)
    · exact hclear.congr fun _ _ _ => (if_neg h2).trans (if_neg h1)

/-- R129: a repeat. -/
theorem emits_acceptRepeat (s : State) : Emits acceptRepeat s := by
  have hcount := emits_setRunAcc (· + 1) s
  by_cases hcap : atCap (s.runAcc + 1) = true
  · exact (hcount.comp (emits_flush _)).congr fun _ _ _ => if_pos hcap
  · exact hcount.congr fun _ _ _ => if_neg hcap

/-- R129: the token `Pix(p)`. -/
theorem emits_acceptPix (p : Pixel) (s : State) : Emits (acceptPix p) s := by
  by_cases hrep : isRepeat p s = true
  · exact (emits_acceptRepeat s).congr fun _ _ _ => if_pos hrep
  · exact ((emits_flush s).comp (emits_selectPixel p _).unlessFaulted).congr fun _ _ _ => if_neg hrep

/-- R130: the token `Eos`. -/
theorem emits_acceptEos (s : State) : Emits acceptEos s :=
  (emits_flush s).comp ((emits_emitEos _).comp (.of_silent (f := clearRun) rfl fun _ _ _ => rfl)).unlessFaulted

/-- R136: every row of the opcode table. -/
theorem emits_effect (i : Instr) (s : State) : Emits (effect i) s := by
  cases i with
  | literal p => exact emits_emitTag (.literal p) s
  | run n => exact emits_emitTag (.run n) s
  | index a => exact emits_emitTag (.index a) s
  | diffShort dR dG dB => exact emits_emitTag (.diffShort dR dG dB) s
  | diffLong dR dG dB => exact emits_emitTag (.diffLong dR dG dB) s
  | pix p => exact emits_acceptPix p s
  | eos => exact emits_acceptEos s

/-- Log entry 2: no row touches the schedule. -/
@[simp] theorem effect_edges (i : Instr) (s : State) : (effect i s).edges = s.edges := by
  obtain ⟨-, -, -, -, hedges, -⟩ := (emits_effect i s).exists_new
  exact hedges

/-! ## Between emission and transfer -/

/-- R136: an output beat keeps what has been transferred and what is pending together. -/
theorem deliver_sent_append_pending (ready : Bool) (s : State) :
    (deliver ready s).sent ++ (deliver ready s).pending = s.sent ++ s.pending := by
  rcases deliver_cases ready s with e | ⟨-, x, rest, hp, e⟩
  · rw [e]
  · simp [e, hp]

/-- An output beat emits nothing. -/
@[simp] theorem deliver_out (ready : Bool) (s : State) : (deliver ready s).out = s.out := by
  rcases deliver_cases ready s with e | ⟨-, x, rest, -, e⟩ <;> rw [e]

/-- An output beat does not touch the schedule. -/
@[simp] theorem deliver_edges (ready : Bool) (s : State) : (deliver ready s).edges = s.edges := by
  rcases deliver_cases ready s with e | ⟨-, x, rest, -, e⟩ <;> rw [e]

/-- Settles O47: an output beat keeps the two together, and what a row emits is appended to both sides. -/
theorem transferredItemsAreAPrefixOfTheOutput : Obligations.TransferredItemsAreAPrefixOfTheOutput := by
  intro s t h hrst hstep
  suffices hout : t.out = t.sent ++ t.pending from ⟨hout, hout ▸ List.prefix_append ..⟩
  rcases step_cases hstep with ⟨-, rfl⟩ | ⟨e, rest, hedges, hedge⟩
  · exact h
  · have hbeat : (deliver e.outReady { s with edges := rest }).out =
        (deliver e.outReady { s with edges := rest }).sent ++ (deliver e.outReady { s with edges := rest }).pending := by
      rw [deliver_out, deliver_sent_append_pending]
      exact h
    rcases hedge with ⟨hr, -⟩ | ⟨-, -, rfl⟩ | ⟨-, -, w, -, ⟨i, -, rfl⟩ | ⟨-, rfl⟩⟩
    · simp [hrst e rest hedges] at hr
    · exact hbeat
    · have hemits := emits_effect i (deliver e.outReady { s with edges := rest })
      obtain ⟨new, hout, hpending, hsent, -, -⟩ := hemits.exists_new
      rw [hout, hpending, hsent, hbeat, List.append_assoc]
    · exact hbeat

end Sys2Proof.Machine
end

section
/-! SUPPORT. R136: schedules of edges. A schedule with idle edges and output beats in it, and the tokens of that schedule
alone, go in lockstep; edges at which the consumer is ready empty the output port. -/

namespace Sys2Proof.Machine

/-! ## Lockstep -/

/-- R136: the same machine, but for how much of the output has been transferred and for the schedule. -/
def Lockstep (a b : State) : Prop :=
  ∃ pending sent edges, a = withPort pending sent edges b ∧ sent ++ pending = b.sent ++ b.pending

namespace Lockstep

variable {a b : State}

/-- A machine with itself under another schedule. -/
theorem self (s : State) (edges : List Edge) : Lockstep s { s with edges := edges } :=
  ⟨s.pending, s.sent, s.edges, rfl, rfl⟩

/-- The schedule is not compared. -/
theorem withEdges (h : Lockstep a b) (es es' : List Edge) : Lockstep { a with edges := es } { b with edges := es' } := by
  obtain ⟨pending, sent, edges, rfl, hport⟩ := h
  exact ⟨pending, sent, es, rfl, hport⟩

/-- R136: an output beat of one of the two. -/
theorem deliver (h : Lockstep a b) (ready : Bool) : Lockstep (deliver ready a) b := by
  have hkept := deliver_sent_append_pending ready a
  obtain ⟨pending, sent, edges, rfl, hport⟩ := h
  rcases deliver_cases ready (withPort pending sent edges b) with e | ⟨-, x, rest, -, e⟩ <;> rw [e] at hkept ⊢
  · exact ⟨pending, sent, edges, rfl, hport⟩
  · exact ⟨rest, sent ++ [x], edges, rfl, hkept.trans hport⟩

/-- The same row taken by both. -/
theorem effect (h : Lockstep a b) (i : Instr) : Lockstep (effect i a) (effect i b) := by
  obtain ⟨pending, sent, edges, rfl, hport⟩ := h
  obtain ⟨new, -, hpending, hsent, -, heffect⟩ := (emits_effect i b).exists_new
  refine ⟨pending ++ new, sent, edges, heffect .., ?_⟩
  rw [hpending, hsent, ← List.append_assoc, hport, List.append_assoc]

/-- R16: the fault is common. -/
theorem err_eq (h : Lockstep a b) : a.err = b.err := by
  obtain ⟨pending, sent, edges, rfl, -⟩ := h
  rfl

end Lockstep

/-! ## Edges of the composed hardware -/

/-- R129, R130: a live machine takes a token. -/
theorem step_of_token {s : State} {e : Edge} {rest : List Edge} {v : TokenWord} (h : s.edges = e :: rest)
    (hr : e.rst = false) (hp : e.presented = some (.token v)) (he : s.err = false) :
    step s = .next (effect (decodeToken v).toInstr (deliver e.outReady { s with edges := rest })) := by
  rw [stepRunsThePresentedInstruction s e rest _ _ h hr hp rfl, exec_eq, whileLive_of_live (by simpa using he)]

/-- R129, R130: a live machine takes a scheduled token with nothing transferred. -/
theorem step_of_tokenEdge {s : State} {t : Token} {rest : List Edge} (h : s.edges = tokenEdge t false :: rest)
    (he : s.err = false) : step s = .next (effect t.toInstr { s with edges := rest }) := by
  rw [step_of_token h rfl rfl he, decodeToken_encodeToken, show (tokenEdge t false).outReady = false from rfl,
    deliver_false]

/-- R146: under the invariant no token raises a fault. -/
theorem CoreInv.effect_token_err {s : State} (h : CoreInv s) (he : s.err = false) (t : Token) :
    (effect t.toInstr s).err = false := by
  cases t with
  | pix p =>
    change (acceptPix p s).err = false
    rcases h.acceptPix_cases he p with ⟨-, -, e⟩ | ⟨-, -, e⟩ | ⟨-, e⟩
    · rw [e]; exact he
    · rw [e, closeRun_eq p s (by decide) le_rfl]; exact he
    · rw [e, selectPixel_eq p (h.flush_err he)]; exact h.flush_err he
  | eos =>
    change (acceptEos s).err = false
    rw [h.acceptEos_eq he]
    exact h.flush_err he

/-! ## When beats happen (R136) -/

/-- R136: the tokens of a schedule alone, one after another, and what comes after the schedule. -/
def tokenSchedule (es rest : List Edge) : List Edge := (es.filterMap Edge.token?).map (tokenEdge · false) ++ rest

/-- R136: a machine under a schedule of tokens, idle edges and output beats, and one under the tokens alone. -/
theorem runs_lockstep {es rest : List Edge} {a b : State} (h : Lockstep a b) (hinv : CoreInv b) (he : b.err = false)
    (ha : a.edges = es ++ rest) (hb : b.edges = tokenSchedule es rest)
    (hes : ∀ e ∈ es, e.rst = false ∧ e.composed = true) :
    ∃ t u, runs es.length a = .next t ∧ runs (es.filterMap Edge.token?).length b = .next u ∧ Lockstep t u ∧
      t.edges = u.edges ∧ a.sent <+: t.sent := by
  induction es generalizing a b with
  | nil => exact ⟨a, b, rfl, rfl, h, ha.trans hb.symm, List.prefix_rfl⟩
  | cons e es ih =>
    obtain ⟨⟨hr, hc⟩, hes⟩ := List.forall_mem_cons.1 hes
    cases hp : e.presented with
    | none =>
      have htok : e.token? = none := by simp [Edge.token?, hp]
      have hstep := step_of_nothing_presented ha hr hp
      rw [tokenSchedule, List.filterMap_cons_none htok] at hb
      rw [List.filterMap_cons_none htok]
      obtain ⟨t, u, ht, hu, htu, hedges, hsent⟩ :=
        ih ((h.withEdges (es ++ rest) b.edges).deliver e.outReady) hinv he (deliver_edges ..) hb hes
      exact ⟨t, u, (runs_succ_of_next _ hstep).trans ht, hu, htu, hedges, (step_grows hstep).2.2.trans hsent⟩
    | some w =>
      obtain ⟨v, rfl⟩ := composed_presented hc hp
      have htok : e.token? = some (decodeToken v) := by simp [Edge.token?, hp]
      rw [tokenSchedule, List.filterMap_cons_some htok] at hb
      rw [List.filterMap_cons_some htok]
      have hinv' := hinv.withEdges (tokenSchedule es rest)
      have hstep := step_of_token ha hr hp (h.err_eq.trans he)
      have hstep' := step_of_tokenEdge (rest := tokenSchedule es rest) hb he
      obtain ⟨t, u, ht, hu, htu, hedges, hsent⟩ :=
        ih (((h.withEdges (es ++ rest) (tokenSchedule es rest)).deliver e.outReady).effect _) (hinv'.afterEffect he _)
          (hinv'.effect_token_err he _) (by simp) (by simp) hes
      exact ⟨t, u, (runs_succ_of_next _ hstep).trans ht, (runs_succ_of_next _ hstep').trans hu, htu, hedges,
        (step_grows hstep).2.2.trans hsent⟩

/-- Settles O53: both start from the same machine. -/
theorem timingOfBeatsDoesNotChangeTheOutput : Obligations.TimingOfBeatsDoesNotChangeTheOutput := by
  intro s es rest hinv he hedges hes
  obtain ⟨t, u, ht, hu, ⟨pending, sent, edges, rfl, hport⟩, htu, hsent⟩ :=
    runs_lockstep (Lockstep.self s (tokenSchedule es rest)) (hinv.withEdges _) he hedges rfl hes
  obtain rfl : edges = u.edges := htu
  exact ⟨_, u, ht, hu, rfl, hport, hsent⟩

/-! ## A consumer that is ready (R135, R136) -/

/-- An edge at which nothing is presented and the consumer is ready. -/
def readyEdge : Edge := { rst := false, presented := none, outReady := true }

/-- R136: a ready edge for each item pending transfers them all, in order. -/
theorem runs_readyEdges {s : State} {k : Nat} {rest : List Edge} (he : s.err = false) (hk : s.pending.length = k)
    (h : s.edges = List.replicate k readyEdge ++ rest) :
    runs k s = .next { s with pending := [], sent := s.sent ++ s.pending, edges := rest } := by
  induction k generalizing s with
  | zero =>
    obtain rfl : s.edges = rest := h
    have hnil : s.pending = [] := List.length_eq_zero_iff.1 hk
    rw [runs_zero, hnil, List.append_nil, ← hnil]
  | succ k ih =>
    obtain ⟨x, left, hp⟩ := List.exists_cons_of_length_eq_add_one hk
    have hstep := step_of_nothing_presented h rfl rfl
    rw [show readyEdge.outReady = true from rfl, deliver_ready (by exact he) (by exact hp)] at hstep
    rw [runs_succ_of_next _ hstep, ih (by exact he) (by simpa [hp] using hk) rfl]
    simp [hp]

end Sys2Proof.Machine
end

section
/-! SUPPORT. R129 to R133: the streaming form against the batch form. Between tokens the machine stands where every
scan of an input that begins with the pixels represented so far comes through, with the pending repeats still to come. -/

namespace Sys2Proof.Machine

/-! ## States that a scan comes through (R126, R127) -/

/-- R126: the scan of the whole input ends as it does when it goes on from `sc`. -/
def PassesThrough (seq : List Pixel) (sc : Scan) : Prop :=
  scanLoop seq seq.length sc = scanLoop seq seq.length scanStart

/-- R127: with `sc` the scan comes through the state after its next step. -/
theorem PassesThrough.step {seq : List Pixel} {sc : Scan} (h : PassesThrough seq sc) (hlt : sc.pos < seq.length) :
    PassesThrough seq (scanStep seq sc) := by
  have hturn : scanLoop seq (seq.length + 1) sc = scanLoop seq seq.length (scanStep seq sc) := scanLoop_succ_of_lt hlt _
  exact hturn.symm.trans ((scanLoop_turns (by omega) (by omega)).trans h)

/-- R126: at the end of the input the scan is over. -/
theorem PassesThrough.eq_of_le {seq : List Pixel} {sc : Scan} (h : PassesThrough seq sc) (hle : seq.length ≤ sc.pos) :
    scanLoop seq seq.length scanStart = sc := h.symm.trans (scanLoop_of_le hle _)

/-- R80: pixels equal to `q` are counted up to the cap, and so are those behind them. -/
theorem countRepeats_append {q : Pixel} {pend : List Pixel} (hpend : ∀ x ∈ pend, x = q) (cap : Nat) (more : List Pixel) :
    countRepeats q (pend.length + cap) (pend ++ more) = pend.length + countRepeats q cap more := by
  induction pend with
  | nil => simp
  | cons x pend ih =>
    obtain ⟨rfl, hpend⟩ := List.forall_mem_cons.1 hpend
    rw [List.length_cons, Nat.add_right_comm, List.cons_append, countRepeats, if_pos rfl, ih hpend]
    omega

/-- R80: no pixel equal to `q` comes next. -/
theorem countRepeats_of_ne {q : Pixel} {more : List Pixel} (h : more.head? ≠ some q) (cap : Nat) :
    countRepeats q cap more = 0 := by
  cases more with
  | nil => cases cap <;> rfl
  | cons x more =>
    have hx : x ≠ q := by simpa using h
    cases cap with
    | zero => rfl
    | succ cap => exact if_neg hx

/-- R80: RUNLEN of a stretch that the cap ends, or the end of the input, or a pixel that differs. -/
theorem runLen_append {q : Pixel} {pend : List Pixel} (hpend : ∀ x ∈ pend, x = q) (hn : pend.length ≤ 62)
    (done more : List Pixel) (hmore : pend.length = 62 ∨ more.head? ≠ some q) :
    runLen q (done ++ pend ++ more) done.length = pend.length := by
  have hcount : countRepeats q (62 - pend.length) more = 0 := by
    rcases hmore with hcap | hne
    · rw [hcap]; rfl
    · exact countRepeats_of_ne hne _
  have hcap : pend.length + (62 - pend.length) = 62 := by omega
  rw [runLen, List.append_assoc, List.drop_left, config_runMax, ← hcap, countRepeats_append hpend, hcount, Nat.add_zero]

/-- R127: a step at which a first or a differing pixel comes. -/
theorem scanStep_of_ne {seq : List Pixel} {sc : Scan} {p : Pixel} (hp : seq[sc.pos]? = some p) (hne : sc.prev ≠ some p) :
    scanStep seq sc =
      { cache := cacheInsert sc.cache p, prev := some p, pos := sc.pos + 1,
        tags := sc.tags ++ [normal sc.cache sc.prev p] } := by
  have hlt := (List.getElem?_eq_some_iff.1 hp).1
  rcases scanStep_cases hlt with ⟨q, hq, h2, -⟩ | ⟨p', hp', e⟩
  · have hrepeat := getElem?_of_runLen_pos (Nat.two_pos.trans_le h2)
    exact absurd (hq.trans (hrepeat.symm.trans hp)) hne
  · rw [hp] at hp'
    cases hp'
    exact e

/-! ## The machine between tokens -/

/-- R131: the machine that began a run in `s0` has represented the pixels `done` by the Tags `ts` and counted the
repeats `pend`. Every scan of an input that begins with `done` comes through its registers. -/
structure Streamed (s0 : State) (done pend : List Pixel) (ts : List Tag) (s : State) : Prop where
  live : s0.err = false
  eq_emitTags :
    s = emitTags ts { s0 with cache := s.cache, prev := s.prev, runAcc := pend.length, pos := done.length }
  repeats : ∀ x ∈ pend, s.prev = some x
  at_most_cap : pend.length ≤ 62
  cache_wf : Cache.wf s.cache
  prev_cached : ∀ q, s.prev = some q → cacheRead s.cache (pixelHash q) = some q
  passes : ∀ more, PassesThrough (done ++ more) ⟨s.cache, s.prev, done.length, ts⟩

/-- R19, R131: where a run begins no pixel has come. -/
theorem streamed_of_runStart {s : State} (h : RunStart s) : Streamed s [] [] [] s := by
  obtain ⟨hcache, hprev, hacc, hpos, herr⟩ := h
  exact {
    live := herr
    eq_emitTags := by cases s; cases hacc; cases hpos; simp [emitTags, packAll]
    repeats := nofun
    at_most_cap := Nat.zero_le _
    cache_wf := hcache ▸ cacheClear_wf
    prev_cached := by simp [hprev]
    passes := fun _ => by rw [hcache, hprev]; rfl }

namespace Streamed

variable {s0 s : State} {done pend : List Pixel} {ts : List Tag}

/-- R146: no fault. -/
theorem err_eq (h : Streamed s0 done pend ts s) : s.err = false := by
  rw [h.eq_emitTags]
  exact h.live

/-- R13: `run_acc` is the number of pixels pending. -/
theorem runAcc_eq (h : Streamed s0 done pend ts s) : s.runAcc = pend.length := by
  rw [h.eq_emitTags]
  rfl

/-- R14: `pos` is the number of pixels represented. -/
theorem pos_eq (h : Streamed s0 done pend ts s) : s.pos = done.length := by
  rw [h.eq_emitTags]
  rfl

/-- R117: Tags emitted next, with the registers moved on. -/
theorem emitTags_eq (h : Streamed s0 done pend ts s) (us : List Tag) (c : Cache) (prev : Option Pixel) (acc pos : Nat) :
    emitTags us { s with cache := c, prev := prev, runAcc := acc, pos := pos } =
      emitTags (ts ++ us) { s0 with cache := c, prev := prev, runAcc := acc, pos := pos } := by
  rw [h.eq_emitTags, emitTags_emitTags]

/-- R129, R131: FLUSH closes the pending repeats as the scan does, of an input where the cap ends them, or the end of the
input, or a pixel that differs. It leaves the cache and `prev`, the INSERT being redundant. -/
theorem exists_flush (h : Streamed s0 done pend ts s) :
    ∃ ts', flush s =
        emitTags ts' { s0 with cache := s.cache, prev := s.prev, runAcc := 0, pos := (done ++ pend).length } ∧
      ∀ more, (pend.length = 62 ∨ ∀ x, more.head? = some x → s.prev ≠ some x) →
        PassesThrough (done ++ pend ++ more) ⟨s.cache, s.prev, (done ++ pend).length, ts'⟩ := by
  cases pend with
  | nil =>
    refine ⟨ts, ?_, fun more _ => by simpa using h.passes more⟩
    rw [flush_of_zero h.runAcc_eq, List.append_nil]
    exact h.eq_emitTags
  | cons q pend =>
    have hq : s.prev = some q := h.repeats q List.mem_cons_self
    have hread := h.prev_cached q hq
    have hins : cacheInsert s.cache q = s.cache := cacheInsert_of_read h.cache_wf hread
    have hpend : ∀ x ∈ q :: pend, x = q := fun x hx => Option.some.inj ((h.repeats x hx).symm.trans hq)
    refine ⟨ts ++ [closingTag (q :: pend).length q], ?_, fun more hmore => ?_⟩
    · have hflush := flush_of_pending h.err_eq (by simp [h.runAcc_eq]) (h.runAcc_eq ▸ h.at_most_cap)
        (by rw [prevPixel_of_some hq]; exact fun _ => hread)
      rw [hflush, prevPixel_of_some hq, hins, h.runAcc_eq, h.pos_eq, List.length_append]
      exact h.emitTags_eq ..
    · have hlen : runLen q (done ++ q :: pend ++ more) done.length = (q :: pend).length :=
        runLen_append hpend h.at_most_cap done more (hmore.imp_right fun hne hx => hne q hx hq)
      have hpass := h.passes (q :: pend ++ more)
      rw [← List.append_assoc] at hpass
      have hstep := hpass.step (by simp)
      rw [scanStep_of_repeats hq hread (by rw [hlen]; simp)] at hstep
      simpa only [hlen, hins, List.length_append] using hstep

/-- R129: a repeat below the cap is pending. -/
theorem count (h : Streamed s0 done pend ts s) {p : Pixel} (hp : s.prev = some p) (hlt : pend.length ≤ 61) :
    Streamed s0 done (pend ++ [p]) ts { s with runAcc := s.runAcc + 1 } :=
  { h with
    eq_emitTags := by
      rw [h.eq_emitTags]
      simp [emitTags]
    repeats := by simpa [or_imp, forall_and, hp] using h.repeats
    at_most_cap := by simpa [Nat.lt_succ_iff] using hlt }

/-- R129, R131: one pixel more. It is pending, or nothing is. -/
theorem exists_acceptPix (h : Streamed s0 done pend ts s) (hlt : pend.length ≤ 61) (p : Pixel) :
    ∃ done' pend' ts', Streamed s0 done' pend' ts' (acceptPix p s) ∧ done' ++ pend' = done ++ pend ++ [p] ∧
      pend'.length ≤ 61 := by
  by_cases hp : s.prev = some p
  · have hcount := h.count hp hlt
    rw [acceptPix_of_repeat hp]
    rcases Nat.lt_or_ge s.runAcc 61 with hacc | hacc
    · rw [acceptRepeat_of_lt hacc]
      exact ⟨done, pend ++ [p], ts, hcount, by simp, by simpa [h.runAcc_eq] using hacc⟩
    · have hacc : s.runAcc = 61 := le_antisymm (h.runAcc_eq ▸ hlt) hacc
      have hcap : (pend ++ [p]).length = 62 := by simp [← h.runAcc_eq, hacc]
      obtain ⟨ts', hflush, hpass⟩ := hcount.exists_flush
      rw [(acceptRepeat_of_cap hacc).trans (hacc ▸ hflush)]
      exact ⟨done ++ (pend ++ [p]), [], ts', {
        live := h.live
        eq_emitTags := rfl
        repeats := nofun
        at_most_cap := Nat.zero_le _
        cache_wf := h.cache_wf
        prev_cached := h.prev_cached
        passes := fun more => hpass more (.inl hcap) }, by simp, Nat.zero_le _⟩
  · obtain ⟨ts', hflush, hpass⟩ := h.exists_flush
    have hlive : (flush s).err = false := by rw [hflush]; exact h.live
    refine ⟨done ++ pend ++ [p], [], ts' ++ [normal s.cache s.prev p], ?_, by simp, Nat.zero_le _⟩
    rw [acceptPix_of_ne hp hlive, selectPixel_eq_emitTags p hlive, hflush, emitTags_emitTags]
    exact {
      live := h.live
      eq_emitTags := by simp [Nat.add_assoc]
      repeats := nofun
      at_most_cap := Nat.zero_le _
      cache_wf := cacheInsert_wf h.cache_wf p
      prev_cached := by simp
      passes := fun more => by
        have hstep := (hpass (p :: more) (.inr (by simpa using hp))).step (by simp)
        rw [scanStep_of_ne (p := p) (by simp) hp] at hstep
        simpa [Nat.add_assoc] using hstep }

/-- R131: after FLUSH the machine stands where the scan of the pixels so far ends. -/
theorem flush_eq (h : Streamed s0 done pend ts s) :
    flush s = emitTags (compress (done ++ pend))
        { s0 with cache := s.cache, prev := s.prev, runAcc := 0, pos := (done ++ pend).length } ∧
      s.cache = (scanLoop (done ++ pend) (done ++ pend).length scanStart).cache ∧
      s.prev = (scanLoop (done ++ pend) (done ++ pend).length scanStart).prev := by
  obtain ⟨ts', hflush, hpass⟩ := h.exists_flush
  have hend := hpass [] (.inr nofun)
  rw [List.append_nil] at hend
  have hscan := hend.eq_of_le le_rfl
  rw [compress, hscan]
  exact ⟨hflush, rfl, rfl⟩

/-- Log entry 2: the schedule plays no part. -/
theorem withEdges (h : Streamed s0 done pend ts s) (es : List Edge) :
    Streamed { s0 with edges := es } done pend ts { s with edges := es } :=
  { h with
    eq_emitTags := by
      rw [h.eq_emitTags]
      rfl }

end Streamed

/-! ## A whole run (R130, R131) -/

/-- R131: the machine that began a run in `s0` has accepted the pixels `seq`, of which at most 61 are pending. -/
def Streaming (s0 : State) (seq : List Pixel) (s : State) : Prop :=
  ∃ done pend ts, Streamed s0 done pend ts s ∧ done ++ pend = seq ∧ pend.length ≤ 61

/-- R19, R131: where a run begins no pixel has come. -/
theorem streaming_of_runStart {s : State} (h : RunStart s) : Streaming s [] s :=
  ⟨[], [], [], streamed_of_runStart h, rfl, Nat.zero_le _⟩

namespace Streaming

variable {s0 s : State} {seq : List Pixel}

/-- R146: no fault. -/
theorem err_eq (h : Streaming s0 seq s) : s.err = false := by
  obtain ⟨done, pend, ts, hs, -⟩ := h
  exact hs.err_eq

/-- Log entry 2: the schedule plays no part. -/
theorem withEdges (h : Streaming s0 seq s) (es : List Edge) :
    Streaming { s0 with edges := es } seq { s with edges := es } := by
  obtain ⟨done, pend, ts, hs, hseq⟩ := h
  exact ⟨done, pend, ts, hs.withEdges es, hseq⟩

/-- R129, R131: one pixel more. -/
theorem acceptPix (h : Streaming s0 seq s) (p : Pixel) : Streaming s0 (seq ++ [p]) (acceptPix p s) := by
  obtain ⟨done, pend, ts, hs, rfl, hlt⟩ := h
  exact hs.exists_acceptPix hlt p

end Streaming

/-- R131: the pixels of a schedule, one after another. -/
theorem runs_pixels {s0 s : State} {seq pixels : List Pixel} {rest : List Edge} (h : Streaming s0 seq s)
    (hedges : s.edges = pixels.map (fun p => tokenEdge (.pix p) false) ++ rest) :
    ∃ t, runs pixels.length s = .next t ∧ Streaming { s0 with edges := rest } (seq ++ pixels) t ∧ t.edges = rest := by
  induction pixels generalizing s0 s seq with
  | nil =>
    obtain rfl : s.edges = rest := hedges
    exact ⟨s, rfl, by simpa using h.withEdges s.edges, rfl⟩
  | cons p pixels ih =>
    have hstep := step_of_tokenEdge (rest := pixels.map (fun p => tokenEdge (.pix p) false) ++ rest) hedges h.err_eq
    obtain ⟨t, ht, hstream, ht_edges⟩ := ih ((h.withEdges _).acceptPix p) (effect_edges (.pix p) _)
    exact ⟨t, (runs_succ_of_next _ hstep).trans ht, by simpa using hstream, ht_edges⟩

/-- R130, R131: what a run of the pixels `seq` does to the state it began in. -/
def emitRun (seq : List Pixel) (s : State) : State := clearRun (emitEos (emitTags (compress seq) s))

@[simp] theorem emitRun_tags (seq : List Pixel) (s : State) :
    (emitRun seq s).tags = s.tags ++ (compress seq).map .tag ++ [.runEnd] := rfl
@[simp] theorem emitRun_out (seq : List Pixel) (s : State) :
    (emitRun seq s).out = s.out ++ (compressedBytes seq).map .byte ++ [.eos] := rfl
@[simp] theorem emitRun_pending (seq : List Pixel) (s : State) :
    (emitRun seq s).pending = s.pending ++ (compressedBytes seq).map .byte ++ [.eos] := rfl
@[simp] theorem emitRun_sent (seq : List Pixel) (s : State) : (emitRun seq s).sent = s.sent := rfl
@[simp] theorem emitRun_edges (seq : List Pixel) (s : State) : (emitRun seq s).edges = s.edges := rfl

/-- R19: a run begins with no fault. -/
theorem RunStart.live {s : State} (h : RunStart s) : s.err = false := by
  obtain ⟨-, -, -, -, herr⟩ := h
  exact herr

/-- R130, R133: after a run of a live machine a run can begin. -/
theorem runStart_emitRun {s : State} (he : s.err = false) (seq : List Pixel) : RunStart (emitRun seq s) :=
  ⟨rfl, rfl, rfl, rfl, he⟩

/-- R130, R131: a run leaves the registers where it found them and appends to the histories. -/
theorem emitRun_eq {s : State} (h : RunStart s) (seq : List Pixel) :
    emitRun seq s =
      { s with
        tags := s.tags ++ (compress seq).map .tag ++ [.runEnd]
        out := s.out ++ (compressedBytes seq).map .byte ++ [.eos]
        pending := s.pending ++ (compressedBytes seq).map .byte ++ [.eos] } := by
  obtain ⟨hcache, hprev, hacc, hpos, -⟩ := h
  rw [hcache, hprev, hacc, hpos]
  rfl

/-- R130: Eos ends the run. -/
theorem Streaming.acceptEos_eq {s0 s : State} {seq : List Pixel} (h : Streaming s0 seq s) :
    acceptEos s = emitRun seq s0 := by
  obtain ⟨done, pend, ts, hs, rfl, -⟩ := h
  obtain ⟨hflush, -⟩ := hs.flush_eq
  rw [acceptEos, hflush, unlessFaulted_of_live (by exact hs.live)]
  rfl

/-- R130, R131: the schedule of a run leads to the end of the run. -/
theorem runs_runEdges {s : State} {seq : List Pixel} {rest : List Edge} (h : RunStart s)
    (hedges : s.edges = runEdges seq ++ rest) :
    runs (seq.length + 1) s = .next (emitRun seq { s with edges := rest }) := by
  rw [runEdges, List.append_assoc] at hedges
  obtain ⟨t, ht, hstream, ht_edges⟩ := runs_pixels (streaming_of_runStart h) hedges
  rw [List.nil_append] at hstream
  have hstep := step_of_tokenEdge ht_edges hstream.err_eq
  rw [runs_add 1 ht, runs_succ_of_next 0 hstep, runs_zero]
  exact congrArg Host.Outcome.next (hstream.withEdges rest).acceptEos_eq

/-- Settles O50: the run (`runs_runEdges`), and where the scan ends before the Eos (`flush_eq`). -/
theorem streamingFormComputesTheBatchForm : Obligations.StreamingFormComputesTheBatchForm := by
  intro s seq rest h hedges
  have hstart : RunStart { s with edges := rest } := h
  refine ⟨(runs_runEdges h hedges).trans (congrArg Host.Outcome.next (emitRun_eq hstart seq)), ?_⟩
  rw [runEdges, List.append_assoc] at hedges
  obtain ⟨u, hu, ⟨done, pend, ts, hs, hseq, -⟩, -⟩ := runs_pixels (streaming_of_runStart h) hedges
  obtain rfl : done ++ pend = seq := hseq
  obtain ⟨-, hcache, hprev⟩ := hs.flush_eq
  exact ⟨u, hu, hcache, hprev⟩

/-- Settles O51: one run after the other. -/
theorem nothingSurvivesARun : Obligations.NothingSurvivesARun := by
  intro s seqA seqB rest h hedges
  rw [List.append_assoc] at hedges
  have hA := runs_runEdges h hedges
  have hstart : RunStart (emitRun seqA { s with edges := runEdges seqB ++ rest }) := runStart_emitRun h.live seqA
  have hB := runs_runEdges (seq := seqB) (rest := rest) hstart rfl
  have hAB := (runs_add _ hA).trans hB
  rw [show seqA.length + 1 + (seqB.length + 1) = seqA.length + seqB.length + 2 by omega] at hAB
  exact ⟨_, hAB, runStart_emitRun hstart.live seqB, rfl, by simp, by simp⟩

/-- R132: the Tags that a scan comes through with begin its Tags. -/
theorem PassesThrough.tags_prefix {seq : List Pixel} {sc : Scan} (h : PassesThrough seq sc) :
    sc.tags <+: compress seq := by
  rw [compress, ← h]
  exact scanLoop_induction (P := fun sc' => sc.tags <+: sc'.tags)
    (fun _ hlt hprefix => hprefix.trans (scanStep_tags_prefix hlt)) _ List.prefix_rfl

/-- Settles O52: what is pending is not represented, and every scan comes through the Tags emitted. -/
theorem outputLagsByAtMost61Pixels : Obligations.OutputLagsByAtMost61Pixels := by
  intro s seq rest h hedges
  obtain ⟨t, ht, ⟨done, pend, ts, hs, hseq, hlt⟩, -⟩ := runs_pixels (streaming_of_runStart h) hedges
  obtain rfl : done ++ pend = seq := hseq
  have hdone := hs.passes []
  rw [List.append_nil] at hdone
  refine ⟨t, ts, ht, hs.runAcc_eq ▸ hlt, by rw [hs.pos_eq, hs.runAcc_eq, List.length_append], ?_, ?_, fun more => ?_⟩
  · rw [hs.eq_emitTags]
    rfl
  · rw [hs.pos_eq, List.take_left, compress, hdone.eq_of_le le_rfl]
  · rw [List.append_assoc]
    exact (hs.passes (pend ++ more)).tags_prefix

/-- Settles O54: the run, and then its items transferred (`runs_readyEdges`). -/
theorem aRunCompletesWhenTheConsumerIsReady : Obligations.ARunCompletesWhenTheConsumerIsReady := by
  intro s seq rest h hpending hedges
  have hrun := runs_runEdges (rest := List.replicate _ readyEdge ++ rest) h (hedges.trans (List.append_assoc ..))
  have hbeats := (runs_add _ hrun).trans (runs_readyEdges (rest := rest) h.live (by simp [hpending]) rfl)
  refine ⟨_, hbeats, by simp [hpending], rfl, rfl, runStart_emitRun h.live seq, ?_⟩
  simp [runsComplete, hpending, List.count_eq_zero]

end Sys2Proof.Machine
end

section
/-! SUPPORT. R146 to R149, R157: the fault. What a live machine takes that raises it, what a faulted or idle machine
leaves as it is, and why the composed hardware never comes to it. -/

namespace Sys2Proof.Machine

/-! ## Edges at which nothing is transferred (R148, R157) -/

/-- R148: a faulted machine transfers nothing. -/
theorem deliver_of_err {s : State} (h : s.err = true) (ready : Bool) : deliver ready s = s := by
  rcases deliver_cases ready s with e | ⟨he, -⟩
  · exact e
  · simp [he] at h

/-- R135: with no item presented nothing is transferred. -/
theorem deliver_of_pending_nil {s : State} (h : s.pending = []) (ready : Bool) : deliver ready s = s := by
  rcases deliver_cases ready s with e | ⟨-, x, rest, hp, -⟩
  · exact e
  · simp [hp] at h

/-- Settles O13: an edge at which nothing is presented is its output beat, and there is none. -/
theorem idleHoldsTheState : Obligations.IdleHoldsTheState := by
  refine ⟨fun _ => step_of_nil, fun s e rest h hr hp hidle => ?_⟩
  rw [step_of_nothing_presented h hr hp]
  rcases hidle with hready | hpending
  · rw [hready, deliver_false]
  · rw [deliver_of_pending_nil (by exact hpending)]

/-! ## Stuck until reset (R148, R149) -/

/-- Settles O41: the guard before every row; of the edges that `step_cases` lists, a faulted machine without reset has
only the one at which nothing is presented, and it transfers nothing. -/
theorem faultedMachineIsStuckUntilReset : Obligations.FaultedMachineIsStuckUntilReset := by
  refine ⟨fun s i he => (exec_eq i s).trans (whileLive_of_err he), fun s t e rest h he hr hstep => ?_⟩
  rcases step_cases hstep with ⟨hnil, -⟩ | ⟨e', rest', hcons, hedge⟩
  · simp [hnil] at h
  · obtain ⟨rfl, rfl⟩ : e' = e ∧ rest' = rest := List.cons.inj (hcons.symm.trans h)
    rcases hedge with ⟨hr', -⟩ | ⟨-, hp, rfl⟩ | ⟨-, he', -⟩
    · simp [hr] at hr'
    · exact ⟨hp, deliver_of_err (by exact he) e'.outReady⟩
    · simp [he] at he'

/-! ## Ill-formed words of the tag bus (R147) -/

section
variable {s : State} {e : Edge} {rest : List Edge} {w : TagWord} (h : s.edges = e :: rest) (hr : e.rst = false)
  (hp : e.presented = some (.tagWord w)) (hready : e.outReady = false) (he : s.err = false)
include h hr hp hready he

/-- R22, R147: a bus word that is no Tag takes InvalidKind. -/
theorem step_of_unknown_kind (hw : decodeBus w = none) :
    step s = .next (raise .invalidKind { s with edges := rest }) := by
  have hfetch : fetch (.tagWord w) = none := by simp [fetch, hw]
  rw [step_of_cons h]
  simp only [clockEdge, hr, hp, hready, runPresented, hfetch, deliver_false, presentUnknownKind]
  exact whileLive_of_live (by exact he)

/-- R116, R147: a bus word of a Tag that PACK refuses takes the Tag's cause. -/
theorem step_of_tagWord_of_pack_eq_error {t : Tag} {c : Cause} (hw : decodeBus w = some t) (hc : pack t = .error c) :
    step s = .next (raise c { s with edges := rest }) := by
  have hfetch : fetch (.tagWord w) = some t.toInstr := by simp [fetch, hw]
  rw [stepRunsThePresentedInstruction s e rest _ _ h hr hp hfetch, hready, deliver_false]
  exact exec_tag_of_pack_eq_error (by exact he) hc

end

/-- Settles O40: no Tag, or a Tag by the cause that PACK answers. -/
theorem illFormedTagTakesTheFault : Obligations.IllFormedTagTakesTheFault := by
  intro s e rest w h hr hp hready he
  refine ⟨step_of_unknown_kind h hr hp hready he, fun n hw hn => ?_, fun dR dG dB hw hd => ?_⟩
  · exact step_of_tagWord_of_pack_eq_error h hr hp hready he hw (pack_run_of_not_range hn)
  · exact step_of_tagWord_of_pack_eq_error h hr hp hready he hw (pack_diffShort_of_not_range hd)

/-! ## The composed hardware (R146) -/

/-- R138, R151: the reset wins over the rest of the edge. -/
theorem step_of_reset {s : State} {e : Edge} {rest : List Edge} (h : s.edges = e :: rest) (hr : e.rst = true) :
    step s = .next (applyReset { s with edges := rest }) := by
  rw [step_of_cons h]
  simp [clockEdge, hr]

/-- R146: no fault so far, and nothing but the selector on the tag bus from here on. -/
structure LiveComposed (s : State) : Prop where
  inv : CoreInv s
  live : s.err = false
  composed : ∀ e ∈ s.edges, e.composed = true

/-- R146: a machine of the composed hardware takes each edge without a fault. The guard `err = 0` is met before a token,
and under the invariant no token raises a fault. -/
theorem LiveComposed.exists_step {s : State} (h : LiveComposed s) : ∃ t, step s = .next t ∧ LiveComposed t := by
  obtain ⟨hinv, he, hcomp⟩ := h
  suffices hstep : ∃ t, step s = .next t ∧ t.err = false ∧ t.edges ⊆ s.edges by
    obtain ⟨t, ht, he', hsub⟩ := hstep
    exact ⟨t, ht, everyStepKeepsTheInvariant s t hinv ht, he', fun e hmem => hcomp e (hsub hmem)⟩
  cases hedges : s.edges with
  | nil => exact ⟨s, step_of_nil hedges, he, by simp [hedges]⟩
  | cons e rest =>
    cases hr : e.rst with
    | true => exact ⟨_, step_of_reset hedges hr, rfl, by simp⟩
    | false =>
      cases hp : e.presented with
      | none => exact ⟨_, step_of_nothing_presented hedges hr hp, by simpa using he, by simp⟩
      | some w =>
        obtain ⟨v, rfl⟩ := composed_presented (hcomp e (by simp [hedges])) hp
        have hbeat := (hinv.withEdges rest).deliver e.outReady
        exact ⟨_, step_of_token hedges hr hp he, hbeat.effect_token_err (by simpa using he) (decodeToken v),
          by simp⟩

/-- A property in which every step answers a next state that has it again holds after any number of edges. -/
theorem exists_runs_of_exists_step {P : State → Prop} (hP : ∀ s, P s → ∃ t, step s = .next t ∧ P t) (k : Nat)
    {s : State} (h : P s) : ∃ t, runs k s = .next t ∧ P t := by
  induction k generalizing s with
  | zero => exact ⟨s, runs_zero s, h⟩
  | succ k ih =>
    obtain ⟨u, hu, hPu⟩ := hP s h
    obtain ⟨t, ht, hPt⟩ := ih hPu
    exact ⟨t, (runs_succ_of_next k hu).trans ht, hPt⟩

/-- Settles O42: each edge is taken without a fault (`LiveComposed.exists_step`), so any number of them is. -/
theorem composedHardwareNeverFaults : Obligations.ComposedHardwareNeverFaults := by
  intro k s hinv he hcomp
  obtain ⟨t, ht, hlive⟩ := exists_runs_of_exists_step (fun _ => LiveComposed.exists_step) k ⟨hinv, he, hcomp⟩
  exact ⟨t, ht, hlive.inv, hlive.live⟩

end Sys2Proof.Machine
end

section
/-! SUPPORT. R164, R165: what the LOOKUP of the next pixel observes of the one accepted before it. -/

namespace Sys2Proof.Machine

/-- R99, R129: the pixel accepted becomes `prev`; a repeat leaves it so. -/
theorem CoreInv.acceptPix_prev {s : State} (h : CoreInv s) (he : s.err = false) (p : Pixel) :
    (acceptPix p s).prev = some p := by
  rcases h.acceptPix_cases he p with ⟨hp, -, e⟩ | ⟨hp, -, e⟩ | ⟨-, e⟩
  · rw [e]; exact hp
  · rw [e, closeRun_eq p s (by decide) le_rfl]; exact hp
  · rw [e, selectPixel_eq p (h.flush_err he)]

/-- R129: an accepted pixel keeps the invariant and is `prev` afterwards. -/
theorem CoreInv.afterExecPix {s t : State} {p : Pixel} (h : CoreInv s) (hexec : exec (.pix p) s = .next t) :
    CoreInv t ∧ t.prev = some p := by
  obtain ⟨he, rfl⟩ := exec_eq_next hexec
  exact ⟨h.afterAcceptPix he p, h.acceptPix_prev he p⟩

/-- R97: a pixel whose slot holds no copy of it is a miss, and a miss is no Index. -/
theorem normal_ne_index_of_miss {c : Cache} {p : Pixel} (h : cacheRead c (pixelHash p) ≠ some p) (prev : Option Pixel)
    (slot : Slot) : normal c prev p ≠ .index slot := by
  intro hindex
  obtain ⟨rfl, hit⟩ := read_of_normal_eq_index hindex
  exact h hit

/-- R71, R164: a pixel that collides with a different `prev` misses, because the slot they share holds `prev`: its
own Tag, emitted after what FLUSH emits, is no Index. -/
theorem CoreInv.exec_pix_collision {s t : State} {p q : Pixel} (h : CoreInv s) (hq : s.prev = some q) (hne : q ≠ p)
    (hhash : pixelHash q = pixelHash p) (hexec : exec (.pix p) s = .next t) :
    ∃ u, t.tags.getLast? = some (.tag u) ∧ ∀ slot, u ≠ .index slot := by
  obtain ⟨he, rfl⟩ := exec_eq_next hexec
  have hlive := h.flush_err he
  have hmiss : cacheRead (flush s).cache (pixelHash p) ≠ some p := by
    rw [h.flush_cache he, ← hhash, h.prev_cached q hq]
    simpa using hne
  refine ⟨normal (flush s).cache (flush s).prev p, ?_, normal_ne_index_of_miss hmiss _⟩
  rw [effect, acceptPix_of_ne (by simpa [hq] using hne) hlive, selectPixel_eq p hlive]
  simp

/-- Settles O39: b collides with the `prev` that the first a left, and the second a with the `prev` that b left. -/
theorem collidingPixelsEvictEachOther : Obligations.CollidingPixelsEvictEachOther := by
  intro s s1 s2 s3 a b hinv hne hhash h1 h2 h3
  obtain ⟨hinv1, hprev1⟩ := hinv.afterExecPix h1
  obtain ⟨hinv2, hprev2⟩ := hinv1.afterExecPix h2
  exact ⟨hinv1.exec_pix_collision hprev1 hne hhash h2, hinv2.exec_pix_collision hprev2 hne.symm hhash.symm h3⟩

end Sys2Proof.Machine
end

section
/-! SUPPORT. 95_test_vectors.md E1: the reference decoder in step with the batch scan. After every turn it has the scan's
own cache and `prev` and has given out the pixels consumed so far. -/

namespace Sys2Proof.Machine

/-- R80: the pixels counted are so many copies of `q`. -/
theorem take_countRepeats (q : Pixel) (cap : Nat) (l : List Pixel) :
    l.take (countRepeats q cap l) = List.replicate (countRepeats q cap l) q := by
  induction cap generalizing l with
  | zero => rfl
  | succ cap ih =>
    cases l with
    | nil => rfl
    | cons p rest =>
      simp only [countRepeats]
      split
      case isTrue hp => rw [List.take_succ_cons, List.replicate_succ, ih, hp]
      case isFalse => rfl

/-- R80: the pixels up to the end of a run are those before it and the repeats. -/
theorem take_add_runLen (q : Pixel) (seq : List Pixel) (i : Nat) :
    seq.take (i + runLen q seq i) = seq.take i ++ List.replicate (runLen q seq i) q := by
  rw [List.take_add]
  exact congrArg (seq.take i ++ ·) (take_countRepeats q config.runMax (seq.drop i))

/-- E1: what the reference decoder keeps when it has given out the pixels that the scan has consumed. -/
def Scan.decoded (seq : List Pixel) (s : Scan) : Decoded :=
  { cache := s.cache, prev := s.prev, pixels := seq.take s.pos }

/-- R91, R97, R127: a step adds one Tag, and the reference decoder follows it on that Tag. -/
theorem exists_decodeTag_scanStep {seq : List Pixel} {s : Scan} (hlt : s.pos < seq.length) :
    ∃ t, (scanStep seq s).tags = s.tags ++ [t] ∧
      decodeTag t (s.decoded seq) = some ((scanStep seq s).decoded seq) := by
  rcases scanStep_cases hlt with ⟨q, hq, -, e⟩ | ⟨p, hp, e⟩ <;> rw [e] <;> refine ⟨_, rfl, ?_⟩
  · simp [Scan.decoded, decodeTag, hq, take_add_runLen]
  · have hnormal := decodeTag_normal (s.decoded seq) p
    have htake : seq.take (s.pos + 1) = seq.take s.pos ++ [p] := by rw [List.take_add_one, hp, Option.toList_some]
    simpa [Scan.decoded, decodedPixel, htake] using hnormal

/-- E1: the reference decoder, started anew, reads the scan's Tags as the pixels it has consumed. -/
def TagsDecode (seq : List Pixel) (s : Scan) : Prop := decodeTags s.tags decodedStart = some (s.decoded seq)

/-- R127: a step keeps that. -/
theorem TagsDecode.step {seq : List Pixel} {s : Scan} (h : TagsDecode seq s) (hlt : s.pos < seq.length) :
    TagsDecode seq (scanStep seq s) := by
  obtain ⟨t, htags, ht⟩ := exists_decodeTag_scanStep hlt
  unfold TagsDecode at h ⊢
  simp [htags, decodeTags_append, h, decodeTags, ht]

/-- R126, E1: the Tags of an input decode to the whole input. -/
theorem decodeTags_compress (seq : List Pixel) :
    (decodeTags (compress seq) decodedStart).map (·.pixels) = some seq := by
  have hdecode : TagsDecode seq (scanLoop seq seq.length scanStart) :=
    scanLoop_induction (fun _ hlt h => h.step hlt) _ rfl
  have hend : seq.length ≤ (scanLoop seq seq.length scanStart).pos := length_le_scanLoop_pos (by simp [scanStart])
  rw [compress, hdecode]
  exact congrArg some (List.take_of_length_le hend)

/-- Settles O58: the bytes read back as the Tags, which are well-formed, and the Tags decode to the input. -/
theorem decoderRecoversEveryInput : Obligations.DecoderRecoversEveryInput := by
  intro seq
  obtain ⟨hwf, -⟩ := compressedTagsAreWellFormedAndOrdered seq
  have hread : readStream (compressedBytes seq) = .ok (compress seq) := packedStreamParsesToItsTags _ hwf
  simp only [decodeStream, hread, decodeTags_compress]

end Sys2Proof.Machine
end
